-- ==== Sys2Proof/Word.lean ====
section
/-! DEFINITION. The value types of the PMFC block: bytes, 16-bit code and payload words, 32-bit registers, window offsets. -/

namespace Sys2Proof

/-- One byte: a byte of BUF or of the wire (spec 10_state.md R23). -/
abbrev Byte := BitVec 8

/-- A 16-bit value: a wire code, or a payload word (spec 00_scope.md R8, glossary "word"). -/
abbrev Half := BitVec 16

/-- A 32-bit register value, unsigned unless stated (spec 00_scope.md R12). -/
abbrev Word := BitVec 32

/-- An offset in the host window, 0x00 to 0xFF (spec 20_memory.md R28). -/
abbrev Offset := BitVec 8

end Sys2Proof
end

