-- ==== Sys2Proof/Config.lean ====
section
/-! DEFINITION. What one implementation of the block fixes: the parameters of spec 00_scope.md R7 to R10, their constraint,
the spec's defaults for them, and the constants of R6 that no implementation may change. -/

namespace Sys2Proof

/-- CRC_POLY (spec 00_scope.md R6). -/
abbrev crcPoly : Byte := 0x31#8

/-- BIAS, the exponent bias (R6). -/
abbrev expBias : Nat := 127

/-- MBITS, the mantissa width (R6). -/
abbrev mantissaBits : Nat := 23

/-- PM_MAX, the clamp threshold on the integer part (R6). -/
abbrev pmMax : Nat := 3000

/-- OUT_MAX, the clamped result (R6). -/
abbrev outMax : Nat := 300000

/-- PERIOD_MAX, the largest cleaning period in seconds (R6). PERIOD_MIN is 0, so an unsigned period needs no lower check. -/
abbrev periodMax : Nat := 604800

/-- WIRE_CODE[0..8], one 16-bit code per command (spec 00_scope.md R8). -/
structure WireCodes where
  start : Half
  stop : Half
  reset : Half
  rdrdy : Half
  rddata : Half
  rdser : Half
  clean : Half
  setper : Half
  rdper : Half
deriving DecidableEq, Repr

/-- The parameters of one block (spec 00_scope.md R7 to R10; log entries 1 to 4). They are fixed for the block and software sets none
of them (spec 70_reset_and_hazards.md R114). OP_LATENCY is not observable and has no place here (R123, log entry 12). -/
structure Config where
  /-- CRC_INIT (R7). -/
  crcInit : Byte
  /-- WIRE_CODE (R8). -/
  wireCode : WireCodes
  /-- START_MODE (R9). -/
  startMode : Half
  /-- BUF_BYTES (R10). -/
  bufBytes : Nat
deriving DecidableEq, Repr

/-- The constraint the spec puts on BUF_BYTES (spec 00_scope.md R10). The other parameters are unconstrained. -/
abbrev Config.wf (c : Config) : Prop :=
  c.bufBytes % 4 = 0 ∧ 24 ≤ c.bufBytes ∧ c.bufBytes ≤ 128

/-- The defaults of the spec (R7, R9, R10, spec 30_encoding.md R55). The spec takes them from general knowledge.
PRESUMED (log entries 1 to 4). -/
def Config.default : Config where
  crcInit := 0xFF#8
  wireCode :=
    { start := 0x0010#16, stop := 0x0104#16, reset := 0xD304#16, rdrdy := 0x0202#16, rddata := 0x0300#16,
      rdser := 0xD033#16, clean := 0x5607#16, setper := 0x8004#16, rdper := 0x8004#16 }
  startMode := 0x0300#16
  bufBytes := 48

end Sys2Proof
end

