-- ==== Sys2Proof/Machine/State.lean ====
section
/-! DEFINITION. The state of the machine: the block's complete architectural state (spec 10_state.md R15), its parameters, the host's
accesses still to come and what the last read returned; the reasons a step can stop; the state after reset. -/

namespace Sys2Proof.Machine

/-- BUF as a sparse list of (index, byte), indexes strictly rising, no entry 0x00 (`Memory.wf` in Machine/Ops.lean).
An index that is not listed reads 0x00, the reset contents of BUF (spec 10_state.md R27; log entry 8). -/
abbrev Memory := List Host.Cell

/-- What the outside world does to the block, one at a time (spec 20_memory.md R28, R39; log entry 5). -/
inductive BusInput where
  /-- `HostRead(off)` by an access of `bits` bits. Only 32-bit accesses at multiples of 4 belong to the interface (R32). -/
  | read (bits : Nat) (off : Offset)
  /-- `HostWrite(off, v)` by an access of `bits` bits. -/
  | write (bits : Nat) (off : Offset) (v : Word)
  /-- The platform asserts the block's reset between two accesses (spec 70_reset_and_hazards.md R113). -/
  | platformReset
deriving DecidableEq, Repr

/-- The state of the machine. -/
structure State where
  /-- The parameters of the block: fixed, no step writes them (spec 70_reset_and_hazards.md R114; log entries 1 to 4). -/
  cfg : Config
  /-- OP, the last operation word written (spec 10_state.md R16). -/
  op : Word
  /-- ARG, the operand register (R17). -/
  arg : Word
  /-- RESULT (R18). -/
  result : Word
  /-- STATUS: ERR in bits 3:0, LEN in bits 15:8, the rest 0 (R19). Its fields are read by `State.errField` and `State.lenField`. -/
  status : Word
  /-- CH0, PM1 in hundredths (R22). -/
  ch0 : Word
  /-- CH1, PM2.5 (R22). -/
  ch1 : Word
  /-- CH2, PM4 (R22). -/
  ch2 : Word
  /-- CH3, PM10 (R22). -/
  ch3 : Word
  /-- BUF, the frame buffer (R23). -/
  buf : Memory
  /-- The model's own: the accesses and resets still to come, oldest first (log entry 5). -/
  pending : List BusInput
  /-- The model's own: what the most recent HostRead returned, absent before the first (log entry 6). -/
  lastRead : Option Word
deriving DecidableEq, Repr

/-- The one fault of the model. The block has no trap and reports every error in STATUS (spec 60_exceptions.md R99). -/
inductive Fault where
  /-- An operation or a host access would reach a byte of BUF at index BUF_BYTES or above, a byte that does not exist (spec 20_memory.md R28, R37).
  Raised by `guardBuf`, for BUILD, PARSE, SAMPLE and a write of a BUF word. Safe: it stops where the spec has no byte, and with parameters that meet
  R10 nothing reaches it (log entry 10). -/
  | bufOutOfRange
deriving DecidableEq, Repr

/-- Why a step is refused. -/
inductive Refusal where
  /-- Raised by an arm of `exec` for an operation that has no meaning yet. Safe: it stops. -/
  | notModelled (mnemonic : String)
  /-- Raised by `step` when no access is pending: one host access is one step, so there is no step to take (spec 00_scope.md R5; log entry 7).
  Safe: it stops. -/
  | noHostAccess
  /-- Raised by `performInput` for a host access of a width other than 32 bits, which is outside the interface and gets no step
  (spec 20_memory.md R32). Safe: it stops. -/
  | accessWidth
  /-- Raised by `performInput` for a host access at an offset that is no multiple of 4, which is outside the interface and gets no step
  (spec 20_memory.md R32). Safe: it stops. -/
  | misalignedOffset
deriving DecidableEq, Repr

/-- The three outcomes of this machine. -/
abbrev Outcome := Host.Outcome State Fault Refusal

/-- The machine right after reset: every register 0, every byte of BUF 0x00 (spec 10_state.md R27, 70_reset_and_hazards.md R113), the
parameters at the spec's values, no access pending and nothing read yet. -/
def State.reset : State where
  cfg := Config.default
  op := 0#32
  arg := 0#32
  result := 0#32
  status := 0#32
  ch0 := 0#32
  ch1 := 0#32
  ch2 := 0#32
  ch3 := 0#32
  buf := []
  pending := []
  lastRead := none

end Sys2Proof.Machine
end

