-- ==== Sys2Proof/Machine/Flags.lean ====
section
/-! DEFINITION. The fields of STATUS (spec 10_state.md R19, R20): the outcome codes, the word a host reads, and the two fields. -/

namespace Sys2Proof.Machine

/-- The outcomes of an operation (spec 10_state.md R20, 60_exceptions.md R99). -/
inductive ErrCode where
  | ok
  | checksum
  | arg
  | illegal
deriving DecidableEq, Repr

/-- The numeric codes of R20. -/
def ErrCode.code : ErrCode → BitVec 4
  | .ok => 0#4
  | .checksum => 1#4
  | .arg => 2#4
  | .illegal => 3#4

/-- `zext_32(LEN ++ 0b0000 ++ ERR)` (R19). -/
def statusWord (e : ErrCode) (len : BitVec 8) : Word := 0#16 ++ len ++ 0#4 ++ e.code

/-- STATUS.ERR, bits 3:0 (R19). -/
def errOf (status : Word) : BitVec 4 := status.extractLsb' 0 4

/-- STATUS.LEN, bits 15:8 (R19). -/
def lenOf (status : Word) : BitVec 8 := status.extractLsb' 8 8

/-- STATUS.ERR of a state. -/
def State.errField (s : State) : BitVec 4 := errOf s.status

/-- STATUS.LEN of a state. -/
def State.lenField (s : State) : BitVec 8 := lenOf s.status

/-- A STATUS word the block can hold: reserved bits 7:4 and 31:16 are 0 and ERR is one of the four codes (R19, R20). -/
def statusLegal (status : Word) : Bool :=
  status.extractLsb' 4 4 == 0#4 && status.extractLsb' 16 16 == 0#16 && decide ((errOf status).toNat ≤ 3)

end Sys2Proof.Machine
end

