-- ==== Sys2Proof/Syntax.lean ====
section
/-! DEFINITION. The operations of the PMFC block: the nine command codes and one constructor per row of the opcode table. -/

namespace Sys2Proof

/-- The nine CommandCode variants, in the order that gives their CMD index (spec 30_encoding.md R48, R55). -/
inductive Command where
  | start
  | stop
  | reset
  | rdrdy
  | rddata
  | rdser
  | clean
  | setper
  | rdper
deriving DecidableEq, Repr

/-- The operations a write to OP can start (spec 30_encoding.md R47, R55). `size` is the SIZE field, a data size in bytes (R49).
Their other operands come from ARG and BUF (R60). -/
inductive Instr where
  | crc
  | chk
  | fdec
  | buildStart
  | buildStop
  | buildReset
  | buildRdrdy (size : BitVec 8)
  | buildRddata (size : BitVec 8)
  | buildRdser (size : BitVec 8)
  | buildClean
  | buildSetper
  | buildRdper (size : BitVec 8)
  | parse (size : BitVec 8)
  | sample
deriving DecidableEq, Repr

end Sys2Proof
end

