-- ==== Sys2Proof/WellFormed.lean ====
section
/-! DEFINITION. Which operations are legal for a block with a given BUF_BYTES: the SIZE condition of spec 30_encoding.md R49. -/

namespace Sys2Proof

/-- A data size the block takes: even, and its wire bytes fit BUF (spec 30_encoding.md R49 (a), (b)). -/
def sizeFits (bufBytes : Nat) (size : BitVec 8) : Bool :=
  size.toNat % 2 == 0 && decide (size.toNat + size.toNat / 2 ≤ bufBytes)

/-- An operation is well formed when the SIZE it carries, if any, is one the block takes. -/
def Instr.wellFormed (bufBytes : Nat) : Instr → Bool
  | .crc => true
  | .chk => true
  | .fdec => true
  | .buildStart => true
  | .buildStop => true
  | .buildReset => true
  | .buildRdrdy size => sizeFits bufBytes size
  | .buildRddata size => sizeFits bufBytes size
  | .buildRdser size => sizeFits bufBytes size
  | .buildClean => true
  | .buildSetper => true
  | .buildRdper size => sizeFits bufBytes size
  | .parse size => sizeFits bufBytes size
  | .sample => true

end Sys2Proof
end

