-- ==== Sys2Proof/Decode.lean ====
section
/-! DEFINITION. The operation word (spec 30_encoding.md R46): its fields, the decode procedure of R51, the encoder, and the
decoder as the host's opcode table numbers its bits. -/

namespace Sys2Proof

/-- OPC, bits 3:0 (R46). -/
def fieldOpc (w : Word) : BitVec 4 := w.extractLsb' 0 4

/-- CMD, bits 7:4 (R46). -/
def fieldCmd (w : Word) : BitVec 4 := w.extractLsb' 4 4

/-- SIZE, bits 15:8 (R46). -/
def fieldSize (w : Word) : BitVec 8 := w.extractLsb' 8 8

/-- RSV, bits 31:16 (R46). -/
def fieldRsv (w : Word) : BitVec 16 := w.extractLsb' 16 16

/-- Why a word is illegal: the check of R51 it fails first. All end the operation with the same outcome (R61). -/
inductive DecodeError where
  /-- RSV is not 0 (R50). -/
  | rsvNotZero
  /-- OPC is 0 or 7 to 15 (R47). -/
  | opcReserved
  /-- CMD is not 0 with OPC not BUILD (R48). -/
  | cmdNotZero
  /-- SIZE is not 0 where SIZE is not taken (R49). -/
  | sizeNotZero
  /-- BUILD with CMD 9 to 15 (R81). -/
  | cmdReserved
  /-- SIZE is odd or too large where it is taken (R49). -/
  | sizeIllegal
deriving DecidableEq, Repr

/-- `legal_size` of R51. -/
def legalSize (bufBytes : Nat) (size : BitVec 8) : Bool :=
  size.toNat % 2 == 0 && decide (size.toNat + size.toNat / 2 ≤ bufBytes)

/-- SIZE_MAX, the largest even n with n + n/2 at most BUF_BYTES (spec 00_scope.md R11). -/
def sizeMax (bufBytes : Nat) : Nat := 2 * (bufBytes / 3)

/-- READ_CMDS of R51: the CMD indices that take a SIZE. -/
def isReadCmd (cmd : BitVec 4) : Bool := cmd == 3#4 || cmd == 4#4 || cmd == 5#4 || cmd == 8#4

/-- BUILD's nine operations by CMD index (R55). -/
def buildOfCmd (cmd : BitVec 4) (size : BitVec 8) : Except DecodeError Instr :=
  match cmd.toNat with
  | 0 => .ok .buildStart
  | 1 => .ok .buildStop
  | 2 => .ok .buildReset
  | 3 => .ok (.buildRdrdy size)
  | 4 => .ok (.buildRddata size)
  | 5 => .ok (.buildRdser size)
  | 6 => .ok .buildClean
  | 7 => .ok .buildSetper
  | 8 => .ok (.buildRdper size)
  | _ => .error .cmdReserved

/-- The dispatch at the end of R51, by OPC (R47). -/
def dispatchOpc (opc cmd : BitVec 4) (size : BitVec 8) : Except DecodeError Instr :=
  match opc.toNat with
  | 1 => .ok .crc
  | 2 => .ok .chk
  | 3 => .ok .fdec
  | 4 => buildOfCmd cmd size
  | 5 => .ok (.parse size)
  | 6 => .ok .sample
  | _ => .error .opcReserved

/-- The checks of R51 on the four fields, in the order the spec lists them. -/
def decodeFields (bufBytes : Nat) (rsv : BitVec 16) (size : BitVec 8) (cmd opc : BitVec 4) : Except DecodeError Instr :=
  if rsv ≠ 0#16 then .error .rsvNotZero
  else if opc = 0#4 ∨ 6#4 < opc then .error .opcReserved
  else if opc ≠ 4#4 ∧ cmd ≠ 0#4 then .error .cmdNotZero
  else if (opc = 1#4 ∨ opc = 2#4 ∨ opc = 3#4 ∨ opc = 6#4) ∧ size ≠ 0#8 then .error .sizeNotZero
  else if opc = 4#4 ∧ 8#4 < cmd then .error .cmdReserved
  else if opc = 4#4 ∧ isReadCmd cmd = true ∧ legalSize bufBytes size = false then .error .sizeIllegal
  else if opc = 4#4 ∧ isReadCmd cmd = false ∧ size ≠ 0#8 then .error .sizeNotZero
  else if opc = 5#4 ∧ legalSize bufBytes size = false then .error .sizeIllegal
  else dispatchOpc opc cmd size

/-- The decode procedure of R51: total on every word, which is an operation or illegal for a named reason. -/
def decode (bufBytes : Nat) (w : Word) : Except DecodeError Instr :=
  decodeFields bufBytes (fieldRsv w) (fieldSize w) (fieldCmd w) (fieldOpc w)

/-- RSV ++ SIZE ++ CMD ++ OPC with RSV = 0 (R46). -/
def packWord (size : BitVec 8) (cmd opc : BitVec 4) : Word := 0#16 ++ size ++ cmd ++ opc

/-- The word of an operation, from the tables of R47 and R55. -/
def encode : Instr → Word
  | .crc => packWord 0#8 0#4 1#4
  | .chk => packWord 0#8 0#4 2#4
  | .fdec => packWord 0#8 0#4 3#4
  | .buildStart => packWord 0#8 0#4 4#4
  | .buildStop => packWord 0#8 1#4 4#4
  | .buildReset => packWord 0#8 2#4 4#4
  | .buildRdrdy size => packWord size 3#4 4#4
  | .buildRddata size => packWord size 4#4 4#4
  | .buildRdser size => packWord size 5#4 4#4
  | .buildClean => packWord 0#8 6#4 4#4
  | .buildSetper => packWord 0#8 7#4 4#4
  | .buildRdper size => packWord size 8#4 4#4
  | .parse size => packWord size 0#4 5#4
  | .sample => packWord 0#8 0#4 6#4

/-- A table row's bits as an operation word: the row's `nbits` bits, the bits above them 0. The word is written to OP in one 32-bit
access, so no byte order enters (spec 20_memory.md R38; log entry 14). -/
def tableWord (nbits w : Nat) : Word := BitVec.ofNat 32 (w % 2 ^ nbits)

/-- The operation the decoder reads from a table row's bits, with this spec's BUF_BYTES (log entry 14); none where it is illegal.
The operation word has 32 bits and no longer form (R62). -/
def decodeTableWord (nbits w : Nat) : Option Instr :=
  if 32 < nbits ∨ 2 ^ nbits ≤ w then none
  else
    match decode Config.default.bufBytes (tableWord nbits w) with
    | .ok i => some i
    | .error _ => none

end Sys2Proof
end

