-- ==== Sys2Proof/Machine/Operands.lean ====
section
/-! DEFINITION. Operand assembly (spec 30_encoding.md R60): what each operation reads from ARG, and what SIZE means.
An operation reads ARG as it is when OP is written (spec 70_reset_and_hazards.md R118). -/

namespace Sys2Proof.Machine

/-- CRC's first byte, ARG[15:8]. -/
def State.crcByte0 (s : State) : Byte := s.arg.extractLsb' 8 8

/-- CRC's second byte, ARG[7:0]. -/
def State.crcByte1 (s : State) : Byte := s.arg.extractLsb' 0 8

/-- CHK's first data byte, ARG[23:16]. -/
def State.chkByte0 (s : State) : Byte := s.arg.extractLsb' 16 8

/-- CHK's second data byte, ARG[15:8]. -/
def State.chkByte1 (s : State) : Byte := s.arg.extractLsb' 8 8

/-- CHK's received checksum byte, ARG[7:0]. -/
def State.chkReceived (s : State) : Byte := s.arg.extractLsb' 0 8

/-- FDEC's four float bytes in wire order, all of ARG. -/
def State.floatBits (s : State) : Word := s.arg

/-- BUILD.SETPER's period, all of ARG, unsigned. -/
def State.period (s : State) : Word := s.arg

/-- The period's first payload word, `p[31:16]` (R57). -/
def State.periodHigh (s : State) : Half := s.period.extractLsb' 16 16

/-- The period's second payload word, `p[15:0]` (R57). -/
def State.periodLow (s : State) : Half := s.period.extractLsb' 0 16

/-- The number of 3-byte groups of a response with `size` data bytes (R54). -/
def groupCount (size : BitVec 8) : Nat := size.toNat / 2

/-- The wire length of a response with `size` data bytes, checksum bytes counted (R54; spec 90_conflicts.md C3). -/
def wireLength (size : BitVec 8) : Nat := size.toNat + size.toNat / 2

end Sys2Proof.Machine
end

