-- ==== Sys2Proof/Machine/Ops.lean ====
section
/-! DEFINITION. The shared operations: BUF byte by byte and as big-endian words, the updates of State, `finish` and `raise`
(how every operation ends), and the check that an access stays inside BUF. -/

namespace Sys2Proof.Machine

/-- What a byte of BUF that is not listed reads as: the reset contents (spec 10_state.md R27). -/
def unlistedByte : Byte := 0#8

/-- The canonical form of BUF: indexes strictly rising, no entry equal to what an unlisted index reads as. -/
abbrev Memory.wf (m : Memory) : Prop :=
  List.Pairwise (fun c d : Host.Cell => c.1 < d.1) m ∧ ∀ c ∈ m, c.2 ≠ unlistedByte

/-- Every listed index is below `n`. -/
abbrev Memory.below (n : Nat) (m : Memory) : Prop := ∀ c ∈ m, c.1 < n

/-- `BUF[a]` (spec 00_scope.md R14). -/
def Memory.readByte : Memory → Nat → Byte
  | [], _ => unlistedByte
  | (k, b) :: rest, a => if k = a then b else Memory.readByte rest a

/-- An entry put before `rest`, left out when it says what an unlisted index reads as. -/
def Memory.listed (a : Nat) (v : Byte) (rest : Memory) : Memory :=
  if v = unlistedByte then rest else (a, v) :: rest

/-- `BUF[a] <- v`, keeping the canonical form. -/
def Memory.writeByte : Memory → Nat → Byte → Memory
  | [], a, v => Memory.listed a v []
  | (k, b) :: rest, a, v =>
    if k < a then (k, b) :: Memory.writeByte rest a v
    else if k = a then Memory.listed a v rest
    else Memory.listed a v ((k, b) :: rest)

/-- `MemWrite` of a byte sequence, the first byte at index `a` (R14). -/
def Memory.writeBytes : Memory → Nat → List Byte → Memory
  | m, _, [] => m
  | m, a, v :: vs => Memory.writeBytes (Memory.writeByte m a v) (a + 1) vs

/-- `MemRead(a, 4)`: four bytes, the lowest index most significant (R14; spec 20_memory.md R35). -/
def Memory.readWord (m : Memory) (a : Nat) : Word :=
  m.readByte a ++ m.readByte (a + 1) ++ m.readByte (a + 2) ++ m.readByte (a + 3)

/-- The two bytes of a 16-bit value in wire order, most significant first (spec 20_memory.md R36). -/
def halfBytes (h : Half) : List Byte := [h.extractLsb' 8 8, h.extractLsb' 0 8]

/-- The four bytes of a 32-bit value, most significant first (spec 20_memory.md R35). -/
def wordBytes (w : Word) : List Byte :=
  [w.extractLsb' 24 8, w.extractLsb' 16 8, w.extractLsb' 8 8, w.extractLsb' 0 8]

/-- `OP <- w` (spec 10_state.md R16). -/
def State.setOp (s : State) (w : Word) : State := { s with op := w }

/-- `ARG <- v` (spec 10_state.md R17). -/
def State.setArg (s : State) (v : Word) : State := { s with arg := v }

/-- BUF replaced as a whole: an operation commits its writes at once (spec 60_exceptions.md R101). -/
def State.setBuf (s : State) (m : Memory) : State := { s with buf := m }

/-- CH0 to CH3 written together (spec 43_float_decoder.md R98). -/
def State.setChannels (s : State) (c0 c1 c2 c3 : Word) : State := { s with ch0 := c0, ch1 := c1, ch2 := c2, ch3 := c3 }

/-- The value a HostRead returns, handed to the host (log entry 6). -/
def State.setLastRead (s : State) (v : Word) : State := { s with lastRead := some v }

/-- The inputs still to come after one has been taken (log entry 5). -/
def State.setPending (s : State) (rest : List BusInput) : State := { s with pending := rest }

/-- `finish(err, len, res)`: STATUS.ERR, STATUS.LEN and RESULT (spec 00_scope.md R14). Every operation ends with it exactly once. -/
def State.finish (s : State) (e : ErrCode) (len : BitVec 8) (res : Word) : State :=
  { s with status := statusWord e len, result := res }

/-- `raise <Error>(info)`: the outcome's code, LEN = 0, RESULT = info, and nothing else; no byte of BUF and no CH changes
(spec 00_scope.md R14, 60_exceptions.md R101). This is all that an error does on this hardware, and there is no return from it (R99, R103). -/
def State.raise (s : State) (e : ErrCode) (info : Word) : State := s.finish e 0#8 info

/-- The next state `t`, provided that the `n` bytes from index `a` are bytes of BUF (spec 20_memory.md R28, R37; log entry 10). -/
def guardBuf (s : State) (a n : Nat) (t : State) : Outcome :=
  if a + n ≤ s.cfg.bufBytes then .next t else .fault .bufOutOfRange

/-- The outcome `o` of an operation whose SIZE is legal, else ILLEGAL: what R51 answers for such a word (spec 30_encoding.md R49, R61;
log entry 9). Decode has made the same check, so from a word this always answers `o`. -/
def withLegalSize (s : State) (size : BitVec 8) (o : Outcome) : Outcome :=
  if legalSize s.cfg.bufBytes size = true then o else .next (s.raise .illegal 0#32)

end Sys2Proof.Machine
end

