-- ==== Sys2Proof/Machine/Checksum.lean ====
section
/-! DEFINITION. The CHECKSUM unit (spec 40_checksum.md): crc8, and the operations CRC and CHK. -/

namespace Sys2Proof.Machine

/-- One turn of the inner loop of R65: shift left, and fold the polynomial in when the top bit was set. -/
def crcStep (c : Byte) : Byte := if c.msb then (c <<< 1) ^^^ crcPoly else c <<< 1

/-- `n` turns of the inner loop. -/
def crcSteps : Nat → Byte → Byte
  | 0, c => c
  | n + 1, c => crcSteps n (crcStep c)

/-- One byte folded into the checksum: eight turns (R65). -/
def crcByte (c b : Byte) : Byte := crcSteps 8 (c ^^^ b)

/-- `crc8(b0, b1)` of R65 with CRC_INIT given: every word starts from it afresh (R66). -/
def crc8 (crcInit b0 b1 : Byte) : Byte := crcByte (crcByte crcInit b0) b1

/-- CRC (R67): the checksum of the word in ARG[15:0]. -/
def execCrc (s : State) : Outcome :=
  .next (s.finish .ok 0#8 ((crc8 s.cfg.crcInit s.crcByte0 s.crcByte1).setWidth 32))

/-- CHK's computed checksum (R68). -/
def State.chkComputed (s : State) : Byte := crc8 s.cfg.crcInit s.chkByte0 s.chkByte1

/-- CHK (R68): validate the group in ARG[23:0]. RESULT is the computed checksum either way. -/
def execChk (s : State) : Outcome :=
  .next (if s.chkComputed = s.chkReceived then s.finish .ok 0#8 (s.chkComputed.setWidth 32)
    else s.raise .checksum (s.chkComputed.setWidth 32))

end Sys2Proof.Machine
end

