-- ==== Sys2Proof/Machine/Build.lean ====
section
/-! DEFINITION. The command-frame builder (spec 41_frame_builder.md): the frame of spec 30_encoding.md R52 and the nine BUILD operations. -/

namespace Sys2Proof.Machine

/-- WIRE_CODE[c] (spec 00_scope.md R8). -/
def wireCodeOf (k : WireCodes) : Command → Half
  | .start => k.start
  | .stop => k.stop
  | .reset => k.reset
  | .rdrdy => k.rdrdy
  | .rddata => k.rddata
  | .rdser => k.rdser
  | .clean => k.clean
  | .setper => k.setper
  | .rdper => k.rdper

/-- A payload word and its checksum byte (spec 30_encoding.md R52, R53). -/
def groupBytes (crcInit : Byte) (w : Half) : List Byte :=
  halfBytes w ++ [crc8 crcInit (w.extractLsb' 8 8) (w.extractLsb' 0 8)]

/-- The command frame: the code, then one group per payload word (R52). The code carries no checksum (R53). -/
def frameBytes (c : Config) (k : Command) (payload : List Half) : List Byte :=
  halfBytes (wireCodeOf c.wireCode k) ++ payload.flatMap (groupBytes c.crcInit)

/-- What every BUILD does (R71): the frame at BUF[0..n-1], LEN = n, RESULT as given; BUF[n..] keeps its bytes. -/
def buildFrame (k : Command) (payload : List Half) (res : Word) (s : State) : Outcome :=
  guardBuf s 0 (frameBytes s.cfg k payload).length
    ((s.setBuf (s.buf.writeBytes 0 (frameBytes s.cfg k payload))).finish .ok
      (BitVec.ofNat 8 (frameBytes s.cfg k payload).length) res)

/-- BUILD of a read command: only the code is sent, RESULT is the wire length of the response to expect (R71, R75). -/
def buildRead (k : Command) (size : BitVec 8) (s : State) : Outcome :=
  withLegalSize s size (buildFrame k [] (BitVec.ofNat 32 (wireLength size)) s)

/-- BUILD.START (R72): one payload word, START_MODE. -/
def execBuildStart (s : State) : Outcome := buildFrame .start [s.cfg.startMode] 0#32 s

/-- BUILD.STOP (R73). -/
def execBuildStop (s : State) : Outcome := buildFrame .stop [] 0#32 s

/-- BUILD.RESET (R74): builds the sensor's Reset frame; it does not reset the block (spec 70_reset_and_hazards.md R115). -/
def execBuildReset (s : State) : Outcome := buildFrame .reset [] 0#32 s

/-- BUILD.RDRDY (R75). -/
def execBuildRdrdy (size : BitVec 8) (s : State) : Outcome := buildRead .rdrdy size s

/-- BUILD.RDDATA (R76). -/
def execBuildRddata (size : BitVec 8) (s : State) : Outcome := buildRead .rddata size s

/-- BUILD.RDSER (R77). -/
def execBuildRdser (size : BitVec 8) (s : State) : Outcome := buildRead .rdser size s

/-- BUILD.CLEAN (R78). -/
def execBuildClean (s : State) : Outcome := buildFrame .clean [] 0#32 s

/-- BUILD.SETPER (R79): the range check comes before anything is written. -/
def execBuildSetper (s : State) : Outcome :=
  if periodMax < s.period.toNat then .next (s.raise .arg 0#32)
  else buildFrame .setper [s.periodHigh, s.periodLow] 0#32 s

/-- BUILD.RDPER (R80). -/
def execBuildRdper (size : BitVec 8) (s : State) : Outcome := buildRead .rdper size s

end Sys2Proof.Machine
end

