-- ==== Sys2Proof/Machine/Parse.lean ====
section
/-! DEFINITION. The response parser (spec 42_frame_parser.md): group validity, the first failing group, stripping, and PARSE. -/

namespace Sys2Proof.Machine

/-- `grp_ok(raw, g)` (R83), with `raw` the buffer when the operation starts. -/
def groupOk (crcInit : Byte) (raw : Memory) (g : Nat) : Bool :=
  crc8 crcInit (raw.readByte (3 * g)) (raw.readByte (3 * g + 1)) == raw.readByte (3 * g + 2)

/-- The first of the groups 0 to n-1, in increasing order, whose checksum byte does not match (R84, R86). -/
def firstBad (crcInit : Byte) (raw : Memory) (n : Nat) : Option Nat :=
  (List.range n).find? (fun g => !groupOk crcInit raw g)

/-- The data bytes of group `g` in wire order (R83). -/
def groupData (raw : Memory) (g : Nat) : List Byte := [raw.readByte (3 * g), raw.readByte (3 * g + 1)]

/-- The data bytes of `n` groups, checksum bytes stripped (R84). -/
def strippedData (raw : Memory) (n : Nat) : List Byte := (List.range n).flatMap (groupData raw)

/-- PARSE's next state (R84): CHECKSUM with the first failing group, or the stripped data at BUF[0..size-1]. -/
def parseState (size : BitVec 8) (s : State) : State :=
  match firstBad s.cfg.crcInit s.buf (groupCount size) with
  | some g => s.raise .checksum (BitVec.ofNat 32 g)
  | none => (s.setBuf (s.buf.writeBytes 0 (strippedData s.buf (groupCount size)))).finish .ok size (size.setWidth 32)

/-- PARSE (R84): the response's wire bytes are BUF[0 .. size + size/2 - 1]. -/
def execParse (size : BitVec 8) (s : State) : Outcome :=
  withLegalSize s size (guardBuf s 0 (wireLength size) (parseState size s))

end Sys2Proof.Machine
end

