-- ==== Sys2Proof/Machine/Fdec.lean ====
section
/-! DEFINITION. The float decoder (spec 43_float_decoder.md): fdec, exact on unbounded integers, and the operations FDEC and SAMPLE. -/

namespace Sys2Proof.Machine

/-- `m = w[22:0]` (R89). -/
def mantissaOf (w : Word) : Nat := (w.extractLsb' 0 23).toNat

/-- `E = w[30:23]` (R89). Bit 31 is not read. -/
def biasedExpOf (w : Word) : Nat := (w.extractLsb' 23 8).toNat

/-- `e = E - 127`, from -127 to 128 (R89). -/
def expOf (w : Word) : Int := (biasedExpOf w : Int) - (expBias : Int)

/-- The sub-unit path, `e < 0` (R91), with `k = -e`. -/
def fdecBelowOne (m k : Nat) : Nat := (((2 ^ mantissaBits + m) * 100) >>> mantissaBits) >>> k

/-- The path of `0 <= e <= 11` (R92, R93), with `k = e`: integer part, clamp, truncated fraction (spec 90_conflicts.md C1). -/
def fdecFromOne (m k : Nat) : Nat :=
  let sh := mantissaBits - k
  let v := 2 ^ k + (m >>> sh)
  if pmMax ≤ v then outMax else v * 100 + (((m % 2 ^ sh) * 100) >>> sh)

/-- `fdec(w)` (R94), in hundredths. -/
def fdec (w : Word) : Nat :=
  if biasedExpOf w = 0 ∧ mantissaOf w = 0 then 0
  else if expOf w < 0 then fdecBelowOne (mantissaOf w) (-expOf w).toNat
  else if 12 ≤ expOf w then outMax
  else fdecFromOne (mantissaOf w) (expOf w).toNat

/-- `zext_32(fdec(w))`. -/
def fdecWord (w : Word) : Word := BitVec.ofNat 32 (fdec w)

/-- FDEC (R97). -/
def execFdec (s : State) : Outcome := .next (s.finish .ok 0#8 (fdecWord s.floatBits))

/-- The float of channel `k` in a ReadData response: wire bytes 6k, 6k+1, 6k+3 and 6k+4 (spec 30_encoding.md R58). -/
def channelBits (raw : Memory) (k : Nat) : Word :=
  raw.readByte (6 * k) ++ raw.readByte (6 * k + 1) ++ raw.readByte (6 * k + 3) ++ raw.readByte (6 * k + 4)

/-- SAMPLE's next state (R98): CHECKSUM with the first failing group, or the four channels decoded. -/
def sampleState (s : State) : State :=
  match firstBad s.cfg.crcInit s.buf 8 with
  | some g => s.raise .checksum (BitVec.ofNat 32 g)
  | none =>
    (s.setChannels (fdecWord (channelBits s.buf 0)) (fdecWord (channelBits s.buf 1)) (fdecWord (channelBits s.buf 2))
      (fdecWord (channelBits s.buf 3))).finish .ok 0#8 0#32

/-- SAMPLE (R98): reads BUF[0..23] and never writes BUF. -/
def execSample (s : State) : Outcome := guardBuf s 0 24 (sampleState s)

end Sys2Proof.Machine
end

