-- ==== Sys2Proof/Machine/Dispatch.lean ====
section
/-! DEFINITION. One arm per operation (spec 30_encoding.md R47, R55): the dispatch at the end of R51. -/

namespace Sys2Proof.Machine

def exec (i : Instr) (s : State) : Host.Outcome State Fault Refusal :=
  match i with
  | .crc => Sys2Proof.Machine.execCrc s
  | .chk => Sys2Proof.Machine.execChk s
  | .fdec => Sys2Proof.Machine.execFdec s
  | .buildStart => Sys2Proof.Machine.execBuildStart s
  | .buildStop => Sys2Proof.Machine.execBuildStop s
  | .buildReset => Sys2Proof.Machine.execBuildReset s
  | .buildRdrdy size => Sys2Proof.Machine.execBuildRdrdy size s
  | .buildRddata size => Sys2Proof.Machine.execBuildRddata size s
  | .buildRdser size => Sys2Proof.Machine.execBuildRdser size s
  | .buildClean => Sys2Proof.Machine.execBuildClean s
  | .buildSetper => Sys2Proof.Machine.execBuildSetper s
  | .buildRdper size => Sys2Proof.Machine.execBuildRdper size s
  | .parse size => Sys2Proof.Machine.execParse size s
  | .sample => Sys2Proof.Machine.execSample s

end Sys2Proof.Machine
end

