-- ==== Sys2Proof/Machine/Bus.lean ====
section
/-! DEFINITION. The host window (spec 20_memory.md): the register map, reads, writes, the operation a write to OP starts, the platform's reset. -/

namespace Sys2Proof.Machine

/-- What an offset of the window names (R29). -/
inductive WindowReg where
  | op
  | arg
  | result
  | status
  | ch0
  | ch1
  | ch2
  | ch3
  /-- A BUF word, by the index of its first byte. -/
  | bufWord (a : Nat)
  | reserved
deriving DecidableEq, Repr

/-- Where the BUF words start in the window (R29). -/
abbrev bufBase : Nat := 0x80

/-- The register map of R29. -/
def windowMap (bufBytes : Nat) (off : Offset) : WindowReg :=
  if off = 0x00#8 then .op
  else if off = 0x04#8 then .arg
  else if off = 0x08#8 then .result
  else if off = 0x0C#8 then .status
  else if off = 0x10#8 then .ch0
  else if off = 0x14#8 then .ch1
  else if off = 0x18#8 then .ch2
  else if off = 0x1C#8 then .ch3
  else if bufBase ≤ off.toNat ∧ off.toNat < bufBase + bufBytes then .bufWord (off.toNat - bufBase)
  else .reserved

/-- `HostRead(off)` (R28, R29): the register's value, the BUF word big-endian (R35), 0 at a reserved offset (R30). -/
def hostRead (s : State) (off : Offset) : Word :=
  match windowMap s.cfg.bufBytes off with
  | .op => s.op
  | .arg => s.arg
  | .result => s.result
  | .status => s.status
  | .ch0 => s.ch0
  | .ch1 => s.ch1
  | .ch2 => s.ch2
  | .ch3 => s.ch3
  | .bufWord a => s.buf.readWord a
  | .reserved => 0#32

/-- A write of `w` to OP (spec 10_state.md R16): OP holds `w`, then the operation runs, or ends ILLEGAL where R51 refuses `w`. -/
def startOperation (w : Word) (s : State) : Outcome :=
  match decode s.cfg.bufBytes w with
  | .ok i => exec i (s.setOp w)
  | .error _ => .next ((s.setOp w).raise .illegal 0#32)

/-- A write of `v` to the BUF word at index `a` (R35). -/
def writeBufWord (a : Nat) (v : Word) (s : State) : Outcome :=
  guardBuf s a 4 (s.setBuf (s.buf.writeBytes a (wordBytes v)))

/-- `HostWrite(off, v)` (R34): OP starts an operation, ARG and the BUF words store, anything else does nothing (R30, R31). -/
def hostWrite (off : Offset) (v : Word) (s : State) : Outcome :=
  match windowMap s.cfg.bufBytes off with
  | .op => startOperation v s
  | .arg => .next (s.setArg v)
  | .result => .next s
  | .status => .next s
  | .ch0 => .next s
  | .ch1 => .next s
  | .ch2 => .next s
  | .ch3 => .next s
  | .bufWord a => writeBufWord a v s
  | .reserved => .next s

/-- The platform's reset (spec 70_reset_and_hazards.md R113): all state of the block at its reset value. The parameters are not state of the block
(R114); the queue and what the host has read are the host's (log entry 11). -/
def platformReset (s : State) : State :=
  { State.reset with cfg := s.cfg, pending := s.pending, lastRead := s.lastRead }

/-- An access of the interface, or the refusal of one outside it (R32). -/
def withAccess (bits : Nat) (off : Offset) (o : Outcome) : Outcome :=
  if bits ≠ 32 then .refused .accessWidth
  else if off.toNat % 4 ≠ 0 then .refused .misalignedOffset
  else o

/-- One input of the outside world, taken from the queue: one step (spec 00_scope.md R5). -/
def performInput (a : BusInput) (s : State) : Outcome :=
  match a with
  | .read bits off => withAccess bits off (.next (s.setLastRead (hostRead s off)))
  | .write bits off v => withAccess bits off (hostWrite off v s)
  | .platformReset => .next (platformReset s)

/-- The oldest input of the queue, performed. -/
def performOldest (s : State) : Outcome :=
  match s.pending with
  | [] => .refused .noHostAccess
  | a :: rest => performInput a (s.setPending rest)

/-- The queue with a 32-bit write of `w` to OP put first. -/
def withOperationFirst (w : Word) (s : State) : State := s.setPending (.write 32 0x00#8 w :: s.pending)

end Sys2Proof.Machine
end

