-- ==== Sys2Proof/Machine/Step.lean ====
section
/-! DEFINITION. One step of the machine, and how the host's pipeline places an operation for the next step. -/

namespace Sys2Proof.Machine

/-- One step: the oldest pending access of the host, with the whole operation it starts (spec 00_scope.md R5, 20_memory.md R38). -/
def step (s : State) : Host.Outcome State Fault Refusal := performOldest s

/-- `s` with a write of the table row's word to OP as its next access: the block fetches nothing, an operation word reaches it only
through OP (spec 10_state.md R24, 20_memory.md R42; log entry 5). -/
def State.withFetchWord (s : State) (nbits w : Nat) : State := withOperationFirst (tableWord nbits w) s

end Sys2Proof.Machine
end

