-- ==== Sys2Proof/Safety.lean ====
section
/-! DEFINITION. What claims about runs use: the invariant of the block, the inputs that belong to its interface, and a run that takes them all. -/

namespace Sys2Proof.Machine

/-- A channel value: hundredths in [0, 300000] (spec 10_state.md R22). -/
abbrev channelInRange (v : Word) : Prop := v.toNat ≤ outMax

/-- What is true of every state the block can be in: legal parameters (spec 00_scope.md R10), BUF in canonical form and inside its bounds (spec 10_state.md R23),
STATUS with its reserved bits 0, a code of R20 and LEN within BUF (R19 to R21), channels in range (R22). -/
abbrev State.Inv (s : State) : Prop :=
  s.cfg.wf ∧ s.buf.wf ∧ s.buf.below s.cfg.bufBytes ∧ statusLegal s.status = true ∧ (lenOf s.status).toNat ≤ s.cfg.bufBytes ∧
    channelInRange s.ch0 ∧ channelInRange s.ch1 ∧ channelInRange s.ch2 ∧ channelInRange s.ch3

/-- An input that belongs to the interface: a 32-bit access at a multiple of 4 (spec 20_memory.md R32), or a reset. -/
def BusInput.inInterface : BusInput → Bool
  | .read bits off => bits == 32 && off.toNat % 4 == 0
  | .write bits off _ => bits == 32 && off.toNat % 4 == 0
  | .platformReset => true

/-- A safe run of `k` steps: it ends in a state that meets the invariant, with no fault and no refusal on the way. -/
def SafeRun (k : Nat) (s : State) : Prop := ∃ t : State, Sys2Proof.core.run k s = .next t ∧ t.Inv

end Sys2Proof.Machine
end

