-- ==== Sys2Proof/Certificates/Slice0/Obligations.lean ====
section
/-! DEFINITION. The statements about the PMFC model, each from a numbered rule of spec/ or from the sections it names, and the vocabulary they use. -/

namespace Sys2Proof.Spec

open Sys2Proof.Machine

/-- How an operation ended, as the host reads it: STATUS is `(LEN << 8) | ERR` (spec 10_state.md R19), and RESULT. -/
def Ends (t : State) (err len res : Nat) : Prop := t.status.toNat = 256 * len + err ∧ t.result.toNat = res

/-- What no operation writes: the parameters, OP, ARG, the host's queue and what the host has read. -/
def Untouched (s t : State) : Prop :=
  t.cfg = s.cfg ∧ t.op = s.op ∧ t.arg = s.arg ∧ t.pending = s.pending ∧ t.lastRead = s.lastRead

/-- CH0 to CH3 as before. -/
def SameChannels (s t : State) : Prop := t.ch0 = s.ch0 ∧ t.ch1 = s.ch1 ∧ t.ch2 = s.ch2 ∧ t.ch3 = s.ch3

/-- Every byte of BUF from index `n` on reads as before. -/
def SameBufFrom (n : Nat) (s t : State) : Prop := ∀ a, n ≤ a → t.buf.readByte a = s.buf.readByte a

/-- Every byte of BUF reads as before. -/
def SameBuf (s t : State) : Prop := ∀ a, t.buf.readByte a = s.buf.readByte a

/-- OP, RESULT, STATUS and the channels as before. -/
def SameResults (s t : State) : Prop :=
  t.op = s.op ∧ t.result = s.result ∧ t.status = s.status ∧ SameChannels s t

/-- BUF begins with these bytes. -/
def BufBegins (t : State) (bytes : List Byte) : Prop := ∀ j (h : j < bytes.length), t.buf.readByte j = bytes[j]

/-- The checksum of a 16-bit word, its high byte first (spec 20_memory.md R36). -/
def wordCrc (crcInit : Byte) (w : Half) : Byte := crc8 crcInit (w.extractLsb' 8 8) (w.extractLsb' 0 8)

/-- The word is illegal: R51 dispatches it to no operation. -/
def Illegal (bufBytes : Nat) (w : Word) : Prop := ∃ e, decode bufBytes w = .error e

/-- The word `(size << 8) | low`. -/
def sizedWord (size : BitVec 8) (low : Nat) : Word := BitVec.ofNat 32 (size.toNat * 256 + low)

/-- A legal data size (spec 30_encoding.md R49): even, and its wire bytes fit BUF. -/
def SizeLegal (bufBytes : Nat) (size : BitVec 8) : Prop := size.toNat % 2 = 0 ∧ size.toNat + size.toNat / 2 ≤ bufBytes

/-- Group `g` of BUF is valid (spec 42_frame_parser.md R83). -/
def GroupValid (s : State) (g : Nat) : Prop :=
  crc8 s.cfg.crcInit (s.buf.readByte (3 * g)) (s.buf.readByte (3 * g + 1)) = s.buf.readByte (3 * g + 2)

/-- Groups 0 to n-1 of BUF are valid. -/
def GroupsValid (s : State) (n : Nat) : Prop := ∀ g < n, GroupValid s g

/-- `g` is the first of the groups 0 to n-1 that is not valid (spec 42_frame_parser.md R86). -/
def FirstInvalid (s : State) (n g : Nat) : Prop := g < n ∧ ¬ GroupValid s g ∧ GroupsValid s g

/-- What RESULT records when a write of `w` to OP took `s` to `t` and ended with an error (spec 60_exceptions.md R100): 0 for ILLEGAL and ARG,
the computed checksum for CHK, the first failing group for PARSE and SAMPLE. -/
def RecordsError (s t : State) (w : Word) : Prop :=
  (t.errField = 3#4 → t.result = 0#32) ∧ (t.errField = 2#4 → t.result = 0#32) ∧
  (t.errField = 1#4 →
    (decode s.cfg.bufBytes w = .ok .chk ∧
      t.result.toNat = (crc8 s.cfg.crcInit (s.arg.extractLsb' 16 8) (s.arg.extractLsb' 8 8)).toNat) ∨
    (∃ size, decode s.cfg.bufBytes w = .ok (.parse size) ∧ FirstInvalid s (size.toNat / 2) t.result.toNat) ∨
    (decode s.cfg.bufBytes w = .ok .sample ∧ FirstInvalid s 8 t.result.toNat))

/-- The four data bytes of channel `k` in a ReadData response, as a word (spec 30_encoding.md R58). -/
def channelWord (s : State) (k : Nat) : Word :=
  s.buf.readByte (6 * k) ++ s.buf.readByte (6 * k + 1) ++ s.buf.readByte (6 * k + 3) ++ s.buf.readByte (6 * k + 4)

/-- The mantissa field, w[22:0]. -/
def mant (w : Word) : Nat := w.toNat % 2 ^ 23

/-- The biased exponent field, w[30:23]. -/
def bexp (w : Word) : Nat := w.toNat / 2 ^ 23 % 256

/-- The magnitude bits, w[30:0]. -/
def magnitude (w : Word) : Nat := w.toNat % 2 ^ 31

/-- The value IEEE-754 single precision gives a finite pattern with its sign bit cleared. -/
def ieeeMagnitude (w : Word) : ℚ :=
  if bexp w = 0 then (mant w : ℚ) / 2 ^ 23 / 2 ^ 126
  else (1 + (mant w : ℚ) / 2 ^ 23) * (2 : ℚ) ^ ((bexp w : ℤ) - 127)

/-- Long division over GF(2) by x^8 + x^5 + x^4 + 1 (0x131): the divisor is subtracted under each set bit, from bit `n + 7` down to bit 8. -/
def gf2Reduce : Nat → Nat → Nat
  | 0, x => x
  | n + 1, x => gf2Reduce n (if x.testBit (n + 8) then x ^^^ (0x131 <<< n) else x)

end Sys2Proof.Spec

open Sys2Proof Sys2Proof.Machine Sys2Proof.Spec

/-! ## The operation word -/

/-- Spec 30_encoding.md R46, R47, R48, R55: the word of every legal operation decodes to that operation, for every SIZE it admits and every BUF_BYTES. -/
def Obligations.DecodeOfEncode : Prop :=
  ∀ (bufBytes : Nat) (i : Instr), i.wellFormed bufBytes = true → decode bufBytes (encode i) = .ok i

/-- Spec 30_encoding.md R51: a word that is dispatched is the word of the operation it is dispatched to, and that operation is legal:
each word has at most one meaning and no bit of it is dropped. -/
def Obligations.DispatchedWordIsItsEncoding : Prop :=
  ∀ (bufBytes : Nat) (w : Word) (i : Instr), decode bufBytes w = .ok i → encode i = w ∧ i.wellFormed bufBytes = true

/-- Spec 30_encoding.md R61: which words are illegal, and that a write of one to OP ends with ERR = ILLEGAL, RESULT = 0 and LEN = 0, OP holding the word (spec 10_state.md R16).
Nothing else of the block changes. -/
def Obligations.IllegalWordsEndIllegal : Prop :=
  (∀ (bufBytes : Nat) (w : Word), Illegal bufBytes w ↔
    (fieldOpc w = 0#4 ∨ 7 ≤ (fieldOpc w).toNat) ∨
    fieldRsv w ≠ 0#16 ∨
    (fieldCmd w ≠ 0#4 ∧ fieldOpc w ≠ 4#4) ∨
    (fieldOpc w = 4#4 ∧ 9 ≤ (fieldCmd w).toNat) ∨
    (fieldSize w ≠ 0#8 ∧ (fieldOpc w ∈ [1#4, 2#4, 3#4, 6#4] ∨ fieldOpc w = 4#4 ∧ fieldCmd w ∈ [0#4, 1#4, 2#4, 6#4, 7#4])) ∨
    ((fieldOpc w = 5#4 ∨ fieldOpc w = 4#4 ∧ fieldCmd w ∈ [3#4, 4#4, 5#4, 8#4]) ∧
      ((fieldSize w).toNat % 2 = 1 ∨ sizeMax bufBytes < (fieldSize w).toNat))) ∧
  (∀ bufBytes : Nat, Illegal bufBytes 0x00000000#32) ∧
  ∀ (s : State) (w : Word) (rest : List BusInput), s.pending = .write 32 0x00#8 w :: rest → Illegal s.cfg.bufBytes w →
    ∃ t, step s = .next t ∧ t.op = w ∧ Ends t 3 0 0 ∧ SameBuf s t ∧ SameChannels s t ∧
      t.cfg = s.cfg ∧ t.arg = s.arg ∧ t.pending = rest ∧ t.lastRead = s.lastRead

/-- Spec 00_scope.md R11: SIZE_MAX is the largest even n with n + n/2 at most BUF_BYTES, it is 32 for BUF_BYTES = 48, and no operation accepts a data size above it:
an operation that carries an odd size or one above SIZE_MAX ends ILLEGAL. -/
def Obligations.SizeMaxBoundsEveryDataSize : Prop :=
  (∀ bufBytes : Nat, (sizeMax bufBytes % 2 = 0 ∧ sizeMax bufBytes + sizeMax bufBytes / 2 ≤ bufBytes) ∧
    ∀ n : Nat, n % 2 = 0 → n + n / 2 ≤ bufBytes → n ≤ sizeMax bufBytes) ∧
  sizeMax 48 = 32 ∧
  ∀ (s : State) (size : BitVec 8) (i : Instr),
    i ∈ [.buildRdrdy size, .buildRddata size, .buildRdser size, .buildRdper size, .parse size] →
    (size.toNat % 2 = 1 ∨ sizeMax s.cfg.bufBytes < size.toNat) →
    i.wellFormed s.cfg.bufBytes = false ∧
    ∃ t, exec i s = .next t ∧ Ends t 3 0 0 ∧ SameBuf s t ∧ SameChannels s t ∧ Untouched s t

/-- Spec 30_encoding.md R64, "Concrete words", with the words of R67, R68, R97 and R98: a sanity check of the decoder at BUF_BYTES = 48. -/
def Obligations.ConcreteWordsDecode : Prop :=
  decode 48 0x00000001#32 = .ok .crc ∧ decode 48 0x00000002#32 = .ok .chk ∧ decode 48 0x00000003#32 = .ok .fdec ∧
  decode 48 0x00000004#32 = .ok .buildStart ∧ decode 48 0x00000014#32 = .ok .buildStop ∧
  decode 48 0x00000024#32 = .ok .buildReset ∧ decode 48 0x00000234#32 = .ok (.buildRdrdy 2#8) ∧
  decode 48 0x00001044#32 = .ok (.buildRddata 16#8) ∧ decode 48 0x00002054#32 = .ok (.buildRdser 32#8) ∧
  decode 48 0x00000064#32 = .ok .buildClean ∧ decode 48 0x00000074#32 = .ok .buildSetper ∧
  decode 48 0x00000484#32 = .ok (.buildRdper 4#8) ∧ decode 48 0x00000405#32 = .ok (.parse 4#8) ∧
  decode 48 0x00001005#32 = .ok (.parse 16#8) ∧ decode 48 0x00000006#32 = .ok .sample

/-! ## The host window -/

/-- Spec 10_state.md R16, 20_memory.md R38: a write to OP is one step, and it is the decoded operation, run on the state in which OP holds the word. -/
def Obligations.StepRunsDecodedOperation : Prop :=
  ∀ (s : State) (w : Word) (rest : List BusInput) (i : Instr),
    s.pending = .write 32 0x00#8 w :: rest → decode s.cfg.bufBytes w = .ok i →
    step s = exec i { s with op := w, pending := rest }

/-- Spec 20_memory.md R29, R30, R35: what a host read of each offset returns. The read changes nothing of the block. -/
def Obligations.WindowReadReturnsMappedValue : Prop :=
  ∀ (s : State) (off : Offset) (rest : List BusInput),
    s.pending = .read 32 off :: rest → off.toNat % 4 = 0 →
    ∃ (t : State) (v : Word), step s = .next t ∧ t = { s with pending := rest, lastRead := some v } ∧
      (off = 0x00#8 → v = s.op) ∧ (off = 0x04#8 → v = s.arg) ∧ (off = 0x08#8 → v = s.result) ∧ (off = 0x0C#8 → v = s.status) ∧
      (off = 0x10#8 → v = s.ch0) ∧ (off = 0x14#8 → v = s.ch1) ∧ (off = 0x18#8 → v = s.ch2) ∧ (off = 0x1C#8 → v = s.ch3) ∧
      (∀ k, k < s.cfg.bufBytes / 4 → off.toNat = 0x80 + 4 * k →
        v = s.buf.readByte (4 * k) ++ s.buf.readByte (4 * k + 1) ++ s.buf.readByte (4 * k + 2) ++ s.buf.readByte (4 * k + 3)) ∧
      (0x20 ≤ off.toNat ∧ off.toNat < 0x80 ∨ 0x80 + s.cfg.bufBytes ≤ off.toNat → v = 0#32)

/-- Spec 20_memory.md R33: a read has no side effect, and reads of one offset with only reads in between return the same value. -/
def Obligations.HostReadsHaveNoSideEffect : Prop :=
  ∀ (s : State) (off : Offset) (between : List Offset) (rest : List BusInput),
    (∀ o ∈ off :: between, o.toNat % 4 = 0) →
    s.pending = .read 32 off :: (between.map (BusInput.read 32) ++ .read 32 off :: rest) →
    ∃ t u, step s = .next t ∧ Sys2Proof.core.run (between.length + 1) t = .next u ∧ u.lastRead = t.lastRead ∧
      t = { s with pending := t.pending, lastRead := t.lastRead } ∧ u = { s with pending := rest, lastRead := t.lastRead }

/-- Spec 20_memory.md R35: a BUF word is its four bytes big-endian; a write of it stores its four bytes and nothing else, and it reads back as itself. -/
def Obligations.BufWordWriteIsBigEndian : Prop :=
  ∀ (s : State) (off : Offset) (k : Nat) (v : Word) (rest : List BusInput),
    s.buf.wf → k < s.cfg.bufBytes / 4 → off.toNat = 0x80 + 4 * k → s.pending = .write 32 off v :: rest →
    hostRead s off = s.buf.readByte (4 * k) ++ s.buf.readByte (4 * k + 1) ++ s.buf.readByte (4 * k + 2) ++ s.buf.readByte (4 * k + 3) ∧
    ∃ t, step s = .next t ∧
      t.buf.readByte (4 * k) = v.extractLsb' 24 8 ∧ t.buf.readByte (4 * k + 1) = v.extractLsb' 16 8 ∧
      t.buf.readByte (4 * k + 2) = v.extractLsb' 8 8 ∧ t.buf.readByte (4 * k + 3) = v.extractLsb' 0 8 ∧
      (∀ a, a < 4 * k ∨ 4 * k + 4 ≤ a → t.buf.readByte a = s.buf.readByte a) ∧
      hostRead t off = v ∧ SameResults s t ∧
      t.cfg = s.cfg ∧ t.arg = s.arg ∧ t.pending = rest ∧ t.lastRead = s.lastRead

/-- Spec 20_memory.md R34, 10_state.md R17: a write to ARG stores the value and nothing else. -/
def Obligations.ArgWriteStoresOnly : Prop :=
  ∀ (s : State) (v : Word) (rest : List BusInput), s.pending = .write 32 0x04#8 v :: rest →
    step s = .next { s with arg := v, pending := rest }

/-- Spec 20_memory.md R30, R31: a write to a read-only register or to a reserved offset changes nothing and starts no operation;
a read of a reserved offset returns 0 and changes nothing. -/
def Obligations.ReservedAndReadOnlyOffsets : Prop :=
  (∀ (s : State) (off : Offset) (v : Word) (rest : List BusInput), s.pending = .write 32 off v :: rest → off.toNat % 4 = 0 →
    (off ∈ [0x08#8, 0x0C#8, 0x10#8, 0x14#8, 0x18#8, 0x1C#8] ∨ 0x20 ≤ off.toNat ∧ off.toNat < 0x80 ∨
      0x80 + s.cfg.bufBytes ≤ off.toNat) →
    step s = .next { s with pending := rest }) ∧
  ∀ (s : State) (off : Offset) (rest : List BusInput), s.pending = .read 32 off :: rest → off.toNat % 4 = 0 →
    (0x20 ≤ off.toNat ∧ off.toNat < 0x80 ∨ 0x80 + s.cfg.bufBytes ≤ off.toNat) →
    step s = .next { s with pending := rest, lastRead := some 0#32 }

/-- Spec 20_memory.md R32: an access of another width, or at an offset that is no multiple of 4, gets no step: it is refused. -/
def Obligations.AccessOutsideInterfaceIsRefused : Prop :=
  ∀ (s : State) (a : BusInput) (rest : List BusInput) (bits : Nat) (off : Offset) (v : Word), s.pending = a :: rest →
    (a = .read bits off ∨ a = .write bits off v) → (bits ≠ 32 ∨ off.toNat % 4 ≠ 0) →
    ∃ r, step s = .refused r

/-- Spec 10_state.md R27, 70_reset_and_hazards.md R113: the platform's reset puts every piece of the block's state at its reset value, 0;
so does the state the machine starts in. -/
def Obligations.ResetClearsTheBlock : Prop :=
  (∀ (s : State) (rest : List BusInput), s.pending = .platformReset :: rest →
    ∃ t, step s = .next t ∧ t.op = 0#32 ∧ t.arg = 0#32 ∧ Ends t 0 0 0 ∧
      t.ch0 = 0#32 ∧ t.ch1 = 0#32 ∧ t.ch2 = 0#32 ∧ t.ch3 = 0#32 ∧ ∀ a, t.buf.readByte a = 0#8) ∧
  State.reset.op = 0#32 ∧ State.reset.arg = 0#32 ∧ Ends State.reset 0 0 0 ∧
  State.reset.ch0 = 0#32 ∧ State.reset.ch1 = 0#32 ∧ State.reset.ch2 = 0#32 ∧ State.reset.ch3 = 0#32 ∧
  (∀ a, State.reset.buf.readByte a = 0#8) ∧ ∀ off : Offset, hostRead State.reset off = 0#32

/-- Spec 10_state.md R19, R22 ("Nothing else writes them", "No other operation writes CH"), 20_memory.md R34: only a write to OP or a reset changes OP, RESULT, STATUS or a channel. -/
def Obligations.OnlyOperationsChangeResults : Prop :=
  ∀ s t : State, step s = .next t →
    (∀ bits w rest, s.pending ≠ .write bits 0x00#8 w :: rest) → (∀ rest, s.pending ≠ .platformReset :: rest) →
    SameResults s t

/-- Spec 70_reset_and_hazards.md R114, 00_scope.md R5: no step changes a parameter of the block, and a step takes exactly the oldest input of the queue. -/
def Obligations.StepsKeepParametersAndTakeOneInput : Prop :=
  ∀ s t : State, step s = .next t → t.cfg = s.cfg ∧ ∃ a, s.pending = a :: t.pending

/-! ## CHECKSUM -/

/-- Spec 40_checksum.md R67: CRC's encoding, its result for every ARG, and that nothing else changes. -/
def Obligations.CrcWritesChecksumOfArg : Prop :=
  ∀ s : State,
    decode s.cfg.bufBytes 0x00000001#32 = .ok .crc ∧
    (∀ w, fieldOpc w = 1#4 → w ≠ 0x00000001#32 → Illegal s.cfg.bufBytes w) ∧
    ∃ t, exec .crc s = .next t ∧
      Ends t 0 0 (crc8 s.cfg.crcInit (s.arg.extractLsb' 8 8) (s.arg.extractLsb' 0 8)).toNat ∧
      SameBuf s t ∧ SameChannels s t ∧ Untouched s t

/-- Spec 40_checksum.md R68: CHK's encoding, its outcome for every ARG (OK when the received byte is the computed checksum, else CHECKSUM, with RESULT the computed one),
and that nothing else changes. -/
def Obligations.ChkValidatesGroupInArg : Prop :=
  ∀ s : State,
    decode s.cfg.bufBytes 0x00000002#32 = .ok .chk ∧
    (∀ w, fieldOpc w = 2#4 → w ≠ 0x00000002#32 → Illegal s.cfg.bufBytes w) ∧
    ∃ t, exec .chk s = .next t ∧
      (crc8 s.cfg.crcInit (s.arg.extractLsb' 16 8) (s.arg.extractLsb' 8 8) = s.arg.extractLsb' 0 8 →
        Ends t 0 0 (s.arg.extractLsb' 0 8).toNat) ∧
      (crc8 s.cfg.crcInit (s.arg.extractLsb' 16 8) (s.arg.extractLsb' 8 8) ≠ s.arg.extractLsb' 0 8 →
        Ends t 1 0 (crc8 s.cfg.crcInit (s.arg.extractLsb' 16 8) (s.arg.extractLsb' 8 8)).toNat) ∧
      SameBuf s t ∧ SameChannels s t ∧ Untouched s t

/-- Spec 00_scope.md R6, 40_checksum.md R65: the checksum is the remainder of the word, CRC_INIT folded into its first byte and eight zero bits appended, divided by
x^8 + x^5 + x^4 + 1 over GF(2). The spec marks this reading of its polynomial as general knowledge. -/
def Obligations.CrcIsPolynomialRemainder : Prop :=
  ∀ crcInit b0 b1 : Byte,
    (crc8 crcInit b0 b1).toNat = gf2Reduce 16 (((crcInit ^^^ b0).toNat * 256 + b1.toNat) * 256)

/-- Spec 40_checksum.md R69 (derived there): the checksum is affine, flipping bit k of a word changes its checksum by the k-th value of the spec's table whatever CRC_INIT is,
and so always changes it. -/
def Obligations.SingleBitFlipChangesChecksum : Prop :=
  (∀ (crcInit : Byte) (d e : Half), wordCrc crcInit (d ^^^ e) = wordCrc crcInit d ^^^ wordCrc 0x00#8 e) ∧
  ∀ (k : Nat) (h : k < 16) (crcInit : Byte) (d : Half),
    wordCrc crcInit (d ^^^ (1#16 <<< k)) = wordCrc crcInit d ^^^
      BitVec.ofNat 8 ([0x31, 0x62, 0xC4, 0xB9, 0x43, 0x86, 0x3D, 0x7A, 0xF4, 0xD9, 0x83, 0x37, 0x6E, 0xDC, 0x89, 0x23][k]'h) ∧
    wordCrc crcInit (d ^^^ (1#16 <<< k)) ≠ wordCrc crcInit d

/-! ## The builder -/

/-- Spec 41_frame_builder.md R72: BUILD.START leaves the code and the START_MODE group at BUF[0..4], LEN = 5, RESULT = 0; every other byte and register stays. -/
def Obligations.BuildStartLeavesModeGroup : Prop :=
  ∀ s : State, s.cfg.wf → s.buf.wf →
    decode s.cfg.bufBytes 0x00000004#32 = .ok .buildStart ∧
    (∀ w, fieldOpc w = 4#4 → fieldCmd w = 0#4 → w ≠ 0x00000004#32 → Illegal s.cfg.bufBytes w) ∧
    ∃ t, exec .buildStart s = .next t ∧ Ends t 0 5 0 ∧
      BufBegins t [s.cfg.wireCode.start.extractLsb' 8 8, s.cfg.wireCode.start.extractLsb' 0 8,
        s.cfg.startMode.extractLsb' 8 8, s.cfg.startMode.extractLsb' 0 8, wordCrc s.cfg.crcInit s.cfg.startMode] ∧
      SameBufFrom 5 s t ∧ SameChannels s t ∧ Untouched s t

/-- Spec 41_frame_builder.md R73, R74, R78: BUILD.STOP, BUILD.RESET and BUILD.CLEAN leave the 2-byte code at BUF[0..1], LEN = 2, RESULT = 0; every other byte and register stays. -/
def Obligations.BuildWithoutPayloadLeavesCode : Prop :=
  ∀ (s : State) (i : Instr) (w : Word) (code : Half), s.cfg.wf → s.buf.wf →
    (i, w, code) ∈ [(.buildStop, 0x00000014#32, s.cfg.wireCode.stop), (.buildReset, 0x00000024#32, s.cfg.wireCode.reset),
      (.buildClean, 0x00000064#32, s.cfg.wireCode.clean)] →
    decode s.cfg.bufBytes w = .ok i ∧
    (∀ w', fieldOpc w' = 4#4 → fieldCmd w' = fieldCmd w → w' ≠ w → Illegal s.cfg.bufBytes w') ∧
    ∃ t, exec i s = .next t ∧ Ends t 0 2 0 ∧ BufBegins t [code.extractLsb' 8 8, code.extractLsb' 0 8] ∧
      SameBufFrom 2 s t ∧ SameChannels s t ∧ Untouched s t

/-- Spec 41_frame_builder.md R75, R76, R77, R80: the BUILDs of the read commands leave the 2-byte code at BUF[0..1], LEN = 2, RESULT = size + size/2, for every legal size;
an odd or too large size is ILLEGAL. Every other byte and register stays. -/
def Obligations.BuildReadLeavesCodeAndLength : Prop :=
  ∀ (s : State) (size : BitVec 8) (i : Instr) (low : Nat) (code : Half), s.cfg.wf → s.buf.wf →
    (i, low, code) ∈ [(.buildRdrdy size, 0x34, s.cfg.wireCode.rdrdy), (.buildRddata size, 0x44, s.cfg.wireCode.rddata),
      (.buildRdser size, 0x54, s.cfg.wireCode.rdser), (.buildRdper size, 0x84, s.cfg.wireCode.rdper)] →
    (¬ SizeLegal s.cfg.bufBytes size → Illegal s.cfg.bufBytes (sizedWord size low)) ∧
    (SizeLegal s.cfg.bufBytes size → decode s.cfg.bufBytes (sizedWord size low) = .ok i ∧
      ∃ t, exec i s = .next t ∧ Ends t 0 2 (size.toNat + size.toNat / 2) ∧
        BufBegins t [code.extractLsb' 8 8, code.extractLsb' 0 8] ∧
        SameBufFrom 2 s t ∧ SameChannels s t ∧ Untouched s t)

/-- Spec 41_frame_builder.md R79: BUILD.SETPER leaves the code and the period's two groups at BUF[0..7], LEN = 8, for a period up to 604800;
a larger one, so every one with a bit set above bit 19, ends ARG with LEN = 0 and BUF unchanged. -/
def Obligations.BuildSetperFramesPeriodOrRejects : Prop :=
  ∀ s : State, s.cfg.wf → s.buf.wf →
    decode s.cfg.bufBytes 0x00000074#32 = .ok .buildSetper ∧
    (∀ w, fieldOpc w = 4#4 → fieldCmd w = 7#4 → w ≠ 0x00000074#32 → Illegal s.cfg.bufBytes w) ∧
    (s.arg.toNat ≤ 604800 → ∃ t, exec .buildSetper s = .next t ∧ Ends t 0 8 0 ∧
      BufBegins t [s.cfg.wireCode.setper.extractLsb' 8 8, s.cfg.wireCode.setper.extractLsb' 0 8,
        s.arg.extractLsb' 24 8, s.arg.extractLsb' 16 8, crc8 s.cfg.crcInit (s.arg.extractLsb' 24 8) (s.arg.extractLsb' 16 8),
        s.arg.extractLsb' 8 8, s.arg.extractLsb' 0 8, crc8 s.cfg.crcInit (s.arg.extractLsb' 8 8) (s.arg.extractLsb' 0 8)] ∧
      (s.arg.extractLsb' 16 16).toNat ≤ 9 ∧
      SameBufFrom 8 s t ∧ SameChannels s t ∧ Untouched s t) ∧
    (604800 < s.arg.toNat ∨ s.arg.extractLsb' 20 12 ≠ 0#12 → ∃ t, exec .buildSetper s = .next t ∧ Ends t 2 0 0 ∧
      SameBuf s t ∧ SameChannels s t ∧ Untouched s t)

/-- Spec 30_encoding.md R53: in every frame a BUILD leaves, after the 2-byte code every payload word is followed by exactly one checksum byte, computed over it from CRC_INIT afresh. -/
def Obligations.BuiltFramesCarryTheirChecksums : Prop :=
  ∀ (size : BitVec 8) (i : Instr) (s t : State),
    i ∈ [.buildStart, .buildStop, .buildReset, .buildRdrdy size, .buildRddata size, .buildRdser size, .buildClean, .buildSetper,
      .buildRdper size] →
    s.buf.wf → exec i s = .next t → t.errField = 0#4 →
    ∃ n, t.lenField.toNat = 2 + 3 * n ∧ ∀ g < n,
      t.buf.readByte (2 + 3 * g + 2) = crc8 s.cfg.crcInit (t.buf.readByte (2 + 3 * g)) (t.buf.readByte (2 + 3 * g + 1))

/-- Spec 41_frame_builder.md R82 (derived there): the period round trip. The payload BUILD.SETPER leaves for a legal period, placed at BUF[0..5] of any state of a block with the same
parameters, is stripped by PARSE 4 with ERR = OK, and the host then reads the period back from BUF word 0. -/
def Obligations.PeriodRoundTrip : Prop :=
  ∀ s t u : State, s.cfg.wf → s.buf.wf → u.buf.wf → s.arg.toNat ≤ 604800 → exec .buildSetper s = .next t →
    u.cfg = s.cfg → (∀ j < 6, u.buf.readByte j = t.buf.readByte (j + 2)) →
    ∃ v, exec (.parse 4#8) u = .next v ∧ Ends v 0 4 4 ∧ hostRead v 0x80#8 = s.arg

/-! ## The parser -/

/-- Spec 42_frame_parser.md R84, R85, R86: PARSE of a legal size strips a response whose groups are all valid in place (ERR = OK, LEN = RESULT = size), leaving BUF[size..] alone;
otherwise it ends CHECKSUM with RESULT the first failing group, LEN = 0 and no byte changed. An odd or too large size is ILLEGAL. -/
def Obligations.ParseStripsOrRejects : Prop :=
  ∀ (s : State) (size : BitVec 8), s.buf.wf →
    (¬ SizeLegal s.cfg.bufBytes size → Illegal s.cfg.bufBytes (sizedWord size 0x05)) ∧
    (SizeLegal s.cfg.bufBytes size → decode s.cfg.bufBytes (sizedWord size 0x05) = .ok (.parse size)) ∧
    (SizeLegal s.cfg.bufBytes size → GroupsValid s (size.toNat / 2) →
      ∃ t, exec (.parse size) s = .next t ∧ Ends t 0 size.toNat size.toNat ∧
        (∀ g < size.toNat / 2, t.buf.readByte (2 * g) = s.buf.readByte (3 * g) ∧
          t.buf.readByte (2 * g + 1) = s.buf.readByte (3 * g + 1)) ∧
        SameBufFrom size.toNat s t ∧ SameChannels s t ∧ Untouched s t) ∧
    (∀ g, SizeLegal s.cfg.bufBytes size → FirstInvalid s (size.toNat / 2) g →
      ∃ t, exec (.parse size) s = .next t ∧ Ends t 1 0 g ∧ SameBuf s t ∧ SameChannels s t ∧ Untouched s t)

/-- Spec 42_frame_parser.md R87 (derived there): PARSE 4 of a response whose two groups are valid ends OK, and BUF word 0 then reads as the 4-byte big-endian integer
of wire bytes 0, 1, 3 and 4, whatever its value: a period above 604800 is neither rejected nor changed. -/
def Obligations.PeriodReadBackIsNotChecked : Prop :=
  ∀ s : State, s.buf.wf → 24 ≤ s.cfg.bufBytes → GroupsValid s 2 →
    ∃ t, exec (.parse 4#8) s = .next t ∧ Ends t 0 4 4 ∧
      hostRead t 0x80#8 = s.buf.readByte 0 ++ s.buf.readByte 1 ++ s.buf.readByte 3 ++ s.buf.readByte 4

/-- Spec 40_checksum.md R69 with 42_frame_parser.md R84 and 43_float_decoder.md R98: a response that differs from a valid one in a single bit, of a data byte or of a checksum byte,
is rejected by PARSE and by SAMPLE, with the index of the group the bit is in. -/
def Obligations.SingleBitCorruptionIsRejected : Prop :=
  ∀ (s s' : State) (x k : Nat), s'.cfg = s.cfg → k < 8 →
    s'.buf.readByte x = s.buf.readByte x ^^^ (1#8 <<< k) → (∀ a, a ≠ x → s'.buf.readByte a = s.buf.readByte a) →
    (∀ size : BitVec 8, SizeLegal s.cfg.bufBytes size → GroupsValid s (size.toNat / 2) → x < size.toNat + size.toNat / 2 →
      ∃ t, exec (.parse size) s' = .next t ∧ Ends t 1 0 (x / 3) ∧ SameChannels s' t ∧ SameBuf s' t) ∧
    (s.cfg.wf → GroupsValid s 8 → x < 24 →
      ∃ t, exec .sample s' = .next t ∧ Ends t 1 0 (x / 3) ∧ SameChannels s' t ∧ SameBuf s' t)

/-! ## The float decoder -/

/-- Spec 43_float_decoder.md R97: FDEC's encoding, its result for every ARG, and that nothing else changes. -/
def Obligations.FdecWritesDecodedArg : Prop :=
  ∀ s : State,
    decode s.cfg.bufBytes 0x00000003#32 = .ok .fdec ∧
    (∀ w, fieldOpc w = 3#4 → w ≠ 0x00000003#32 → Illegal s.cfg.bufBytes w) ∧
    ∃ t, exec .fdec s = .next t ∧ Ends t 0 0 (fdec s.arg) ∧ t.result.toNat ≤ 300000 ∧
      SameBuf s t ∧ SameChannels s t ∧ Untouched s t

/-- Spec 43_float_decoder.md R90, R91: zero, and the sub-unit values: the formula, the range of its inner term, and the table of results by exponent. -/
def Obligations.FdecOfZeroAndSubUnit : Prop :=
  ∀ w : Word,
    (bexp w = 0 → mant w = 0 → fdec w = 0) ∧
    (bexp w < 127 → ¬(bexp w = 0 ∧ mant w = 0) →
      fdec w = ((2 ^ 23 + mant w) * 100 / 2 ^ 23) / 2 ^ (127 - bexp w) ∧
      100 ≤ (2 ^ 23 + mant w) * 100 / 2 ^ 23 ∧ (2 ^ 23 + mant w) * 100 / 2 ^ 23 ≤ 199 ∧ fdec w ≤ 99 ∧
      (bexp w = 126 → 50 ≤ fdec w ∧ fdec w ≤ 99) ∧ (bexp w = 125 → 25 ≤ fdec w ∧ fdec w ≤ 49) ∧
      (bexp w = 124 → 12 ≤ fdec w ∧ fdec w ≤ 24) ∧ (bexp w = 123 → 6 ≤ fdec w ∧ fdec w ≤ 12) ∧
      (bexp w = 122 → 3 ≤ fdec w ∧ fdec w ≤ 6) ∧ (bexp w = 121 → 1 ≤ fdec w ∧ fdec w ≤ 3) ∧
      (bexp w = 120 → fdec w ≤ 1) ∧ (bexp w ≤ 119 → fdec w = 0))

/-- Spec 43_float_decoder.md R92: the clamp. It holds for every exponent from 12 up, infinities and NaNs among them, never for an exponent from 0 to 10,
and for exponent 11 exactly from the pattern of 3000.0 up. -/
def Obligations.FdecClampsFromThreeThousand : Prop :=
  ∀ w : Word,
    (139 ≤ bexp w → fdec w = 300000) ∧
    (127 ≤ bexp w → bexp w ≤ 138 → 3000 ≤ 2 ^ (bexp w - 127) + mant w / 2 ^ (150 - bexp w) → fdec w = 300000) ∧
    (127 ≤ bexp w → bexp w ≤ 137 → 2 ^ (bexp w - 127) + mant w / 2 ^ (150 - bexp w) < 2048 ∧ fdec w < 300000) ∧
    (bexp w = 138 → (3000 ≤ 2 ^ 11 + mant w / 2 ^ 12 ↔ 0x3B8000 ≤ mant w) ∧ (0x3B8000 ≤ mant w ↔ 0x453B8000 ≤ magnitude w) ∧
      (fdec w = 300000 ↔ 0x3B8000 ≤ mant w))

/-- Spec 43_float_decoder.md R93: the unclamped values from 1.0 up: the integer part and the truncated fraction, and their ranges. -/
def Obligations.FdecTruncatesTheFraction : Prop :=
  ∀ w : Word, 127 ≤ bexp w → bexp w ≤ 138 → 2 ^ (bexp w - 127) + mant w / 2 ^ (150 - bexp w) < 3000 →
    fdec w = (2 ^ (bexp w - 127) + mant w / 2 ^ (150 - bexp w)) * 100 +
      mant w % 2 ^ (150 - bexp w) * 100 / 2 ^ (150 - bexp w) ∧
    mant w % 2 ^ (150 - bexp w) * 100 / 2 ^ (150 - bexp w) ≤ 99 ∧ 100 ≤ fdec w ∧ fdec w ≤ 299999

/-- Spec 43_float_decoder.md R95 (derived there): the closed form. On every finite pattern fdec is the floor of a hundred times the IEEE-754 magnitude, at most 300000. -/
def Obligations.FdecClosedForm : Prop :=
  (∀ w : Word, bexp w < 255 → (fdec w : ℤ) = min ⌊100 * ieeeMagnitude w⌋ 300000) ∧
  ∀ w : Word, bexp w = 255 → fdec w = 300000

/-- Spec 43_float_decoder.md R96 (derived there): fdec's range, that it is monotone in the magnitude bits and blind to the sign, its largest unclamped and its smallest nonzero result. -/
def Obligations.FdecRangeAndOrder : Prop :=
  (∀ w : Word, fdec w ≤ 300000) ∧
  (∀ w w' : Word, magnitude w ≤ magnitude w' → fdec w ≤ fdec w') ∧
  (∀ w : Word, fdec (w ^^^ 0x80000000#32) = fdec w) ∧
  fdec 0x453B7FFF#32 = 299999 ∧ (∀ w : Word, fdec w < 300000 → magnitude w ≤ 0x453B7FFF) ∧
  fdec 0x3C23D70B#32 = 1 ∧ ∀ w : Word, magnitude w < 0x3C23D70B → fdec w = 0

/-- Spec 43_float_decoder.md R98: SAMPLE decodes the four channels of a valid 24-byte response, ERR = OK, LEN = RESULT = 0; otherwise it ends CHECKSUM with RESULT the first failing
group and the channels unchanged. BUF is never written. -/
def Obligations.SampleDecodesOrRejects : Prop :=
  ∀ s : State, s.cfg.wf →
    decode s.cfg.bufBytes 0x00000006#32 = .ok .sample ∧
    (∀ w, fieldOpc w = 6#4 → w ≠ 0x00000006#32 → Illegal s.cfg.bufBytes w) ∧
    (GroupsValid s 8 → ∃ t, exec .sample s = .next t ∧ Ends t 0 0 0 ∧
      t.ch0.toNat = fdec (channelWord s 0) ∧ t.ch1.toNat = fdec (channelWord s 1) ∧
      t.ch2.toNat = fdec (channelWord s 2) ∧ t.ch3.toNat = fdec (channelWord s 3) ∧
      SameBuf s t ∧ Untouched s t) ∧
    (∀ g, FirstInvalid s 8 g → ∃ t, exec .sample s = .next t ∧ Ends t 1 0 g ∧
      SameChannels s t ∧ SameBuf s t ∧ Untouched s t)

/-- Spec 43_float_decoder.md R98, 70_reset_and_hazards.md R117: SAMPLE can be repeated: a second one leaves everything as the first left it. -/
def Obligations.SampleCanBeRepeated : Prop :=
  ∀ s t : State, exec .sample s = .next t → exec .sample t = .next t

/-- Spec 42_frame_parser.md R88: SAMPLE gives the channels that PARSE 16 followed by FDEC of each BUF word gives. -/
def Obligations.SampleAgreesWithParseAndFdec : Prop :=
  ∀ s t : State, s.cfg.wf → s.buf.wf → exec .sample s = .next t → t.errField = 0#4 →
    ∃ u, exec (.parse 16#8) s = .next u ∧ Ends u 0 16 16 ∧
      ∀ k, k < 4 → ∀ off : Offset, off.toNat = 0x80 + 4 * k →
        ∃ v, exec .fdec { u with arg := hostRead u off } = .next v ∧
          v.result = [t.ch0, t.ch1, t.ch2, t.ch3][k]?.getD 0#32

/-! ## Every operation -/

/-- Spec 10_state.md R16, R17, R26: no operation writes ARG, OP (which already holds the word), a parameter, or anything of the host's. -/
def Obligations.OperationsLeaveArgAndOpAlone : Prop :=
  ∀ (i : Instr) (s t : State), exec i s = .next t → Untouched s t

/-- Spec 10_state.md R22: only a SAMPLE that ends with ERR = OK writes the channels, and then each is in [0, 300000]. -/
def Obligations.OnlySuccessfulSampleWritesChannels : Prop :=
  ∀ (i : Instr) (s t : State), exec i s = .next t →
    (i ≠ .sample ∨ t.errField ≠ 0#4 → SameChannels s t) ∧
    (i = .sample → t.errField = 0#4 →
      t.ch0.toNat ≤ 300000 ∧ t.ch1.toNat ≤ 300000 ∧ t.ch2.toNat ≤ 300000 ∧ t.ch3.toNat ≤ 300000)

/-- Spec 20_memory.md R37 (the writes): an operation leaves every byte of BUF from index LEN on, and every byte at all where it is not BUILD or PARSE.
LEN is what the operation left in STATUS, 0 on every error. -/
def Obligations.OperationsWriteOnlyBufBelowLen : Prop :=
  ∀ (i : Instr) (s t : State), s.buf.wf → exec i s = .next t →
    SameBufFrom t.lenField.toNat s t ∧ (i ∈ [.crc, .chk, .fdec, .sample] → SameBuf s t)

/-- Spec 20_memory.md R37 (the reads): CRC, CHK, FDEC and BUILD read no byte of BUF, PARSE only its wire bytes, SAMPLE only BUF[0..23]: with any other bytes elsewhere in BUF
the outcome, the channels and the bytes produced are the same. -/
def Obligations.OperationsReadOnlyTheirBytes : Prop :=
  ∀ (i : Instr) (s t : State) (m : Memory), s.buf.wf → m.wf → exec i s = .next t →
    (∀ a, (∀ size, i = .parse size → a < size.toNat + size.toNat / 2 → m.readByte a = s.buf.readByte a) ∧
      (i = .sample → a < 24 → m.readByte a = s.buf.readByte a)) →
    ∃ t', exec i { s with buf := m } = .next t' ∧ t'.status = t.status ∧ t'.result = t.result ∧ SameChannels t t' ∧
      ∀ a < t.lenField.toNat, t'.buf.readByte a = t.buf.readByte a

/-- Spec 10_state.md R26, 60_exceptions.md R103: an operation keeps nothing from the one before. Its outcome, its result and the bytes of BUF it leaves depend only on the parameters, ARG and BUF,
and so do the channels a successful SAMPLE leaves: whatever OP, RESULT, STATUS, the channels and the host's side held. -/
def Obligations.OutcomeDependsOnlyOnArgAndBuf : Prop :=
  ∀ (i : Instr) (s s' t : State), s.buf.wf → s'.buf.wf → s'.cfg = s.cfg → s'.arg = s.arg → SameBuf s s' → exec i s = .next t →
    ∃ t', exec i s' = .next t' ∧ t'.status = t.status ∧ t'.result = t.result ∧ SameBuf t t' ∧
      (i = .sample → t.errField = 0#4 → SameChannels t t')

/-- Spec 30_encoding.md R60: the bits of ARG an operation does not read are ignored: with any other value there it does the same. -/
def Obligations.UnreadArgBitsAreIgnored : Prop :=
  ∀ (i : Instr) (s t : State) (v : Word), exec i s = .next t →
    (i = .crc → v.extractLsb' 0 16 = s.arg.extractLsb' 0 16) → (i = .chk → v.extractLsb' 0 24 = s.arg.extractLsb' 0 24) →
    i ≠ .fdec → i ≠ .buildSetper →
    exec i { s with arg := v } = .next { t with arg := v }

/-- Spec 60_exceptions.md R101: a write to OP that ends with an error, whatever the word, leaves OP holding the word, writes STATUS, with LEN = 0, and RESULT,
and nothing else. -/
def Obligations.ErrorsWriteOnlyStatusAndResult : Prop :=
  ∀ (s t : State) (w : Word) (rest : List BusInput), s.pending = .write 32 0x00#8 w :: rest → step s = .next t → t.errField ≠ 0#4 →
    t.op = w ∧ t.status.toNat = t.errField.toNat ∧ t.lenField = 0#8 ∧ RecordsError s t w ∧ SameBuf s t ∧ SameChannels s t ∧
      t.cfg = s.cfg ∧ t.arg = s.arg ∧ t.pending = rest ∧ t.lastRead = s.lastRead

/-- Spec 60_exceptions.md R100, R102: which words end with which error, exactly when, and what RESULT then records. ILLEGAL goes before ARG and CHECKSUM,
CHECKSUM is reported at the lowest failing group. -/
def Obligations.ErrorsHaveTheirCauses : Prop :=
  ∀ (s t : State) (w : Word) (rest : List BusInput), s.pending = .write 32 0x00#8 w :: rest → step s = .next t →
    t.errField.toNat ≤ 3 ∧
    (t.errField = 3#4 ↔ Illegal s.cfg.bufBytes w) ∧ (t.errField = 3#4 → t.result = 0#32) ∧
    (t.errField = 2#4 ↔ decode s.cfg.bufBytes w = .ok .buildSetper ∧ 604800 < s.arg.toNat) ∧ (t.errField = 2#4 → t.result = 0#32) ∧
    (t.errField = 1#4 ↔
      (decode s.cfg.bufBytes w = .ok .chk ∧
        t.result.toNat = (crc8 s.cfg.crcInit (s.arg.extractLsb' 16 8) (s.arg.extractLsb' 8 8)).toNat ∧
        t.result.toNat ≠ (s.arg.extractLsb' 0 8).toNat) ∨
      (∃ size, decode s.cfg.bufBytes w = .ok (.parse size) ∧ FirstInvalid s (size.toNat / 2) t.result.toNat) ∨
      (decode s.cfg.bufBytes w = .ok .sample ∧ FirstInvalid s 8 t.result.toNat))

/-- Spec 10_state.md R19, R21: after every operation STATUS has its reserved bits 0 and LEN as R21 says: the frame's length after a BUILD that ended OK, the data size after such a PARSE,
else 0, and never above BUF_BYTES. -/
def Obligations.LenFollowsTheOperation : Prop :=
  ∀ (i : Instr) (s t : State), s.cfg.wf → exec i s = .next t →
    t.status.toNat = 256 * t.lenField.toNat + t.errField.toNat ∧ t.lenField.toNat ≤ s.cfg.bufBytes ∧
    (t.errField ≠ 0#4 → t.lenField.toNat = 0) ∧
    (t.errField = 0#4 → t.lenField.toNat =
      match i with
      | .buildStart => 5
      | .buildSetper => 8
      | .buildStop => 2
      | .buildReset => 2
      | .buildClean => 2
      | .buildRdrdy _ => 2
      | .buildRddata _ => 2
      | .buildRdser _ => 2
      | .buildRdper _ => 2
      | .parse size => size.toNat
      | .crc => 0
      | .chk => 0
      | .fdec => 0
      | .sample => 0)

/-! ## Every step -/

/-- The invariant holds at reset, with the parameters at this spec's values (spec 10_state.md R27, 00_scope.md R10). -/
def Obligations.ResetMeetsInvariant : Prop := State.reset.Inv

/-- Spec 00_scope.md R10, 10_state.md R19 to R23: from every state that meets the invariant (legal parameters, BUF canonical and within its bounds, STATUS legal with LEN within BUF, channels in range),
a step leads to one that meets it. -/
def Obligations.StepKeepsInvariant : Prop := ∀ s t : State, s.Inv → step s = .next t → t.Inv

/-- Spec 20_memory.md R37, 60_exceptions.md R99: with legal parameters no input faults: no operation and no access reaches beyond BUF. -/
def Obligations.NoInputReachesBeyondBuf : Prop :=
  ∀ (s : State) (f : Fault), s.cfg.wf → step s ≠ .fault f

/-- Spec 20_memory.md R38, R39, 60_exceptions.md R99: whatever the host does within the interface, the block performs every access, one step each, and ends in a state that meets the invariant. -/
def Obligations.EveryInterfaceSequenceCompletes : Prop :=
  ∀ s : State, s.Inv → (∀ a ∈ s.pending, a.inInterface = true) → SafeRun s.pending.length s
end

