-- ==== Sys2Proof/Laws/State.lean ====
section
/-! SUPPORT. What each update of State leaves in each field: one lemma per field per update, so that no proof unfolds a record update. -/

namespace Sys2Proof.Machine

variable (s : State)

@[simp] theorem State.raise_eq_finish (e : ErrCode) (info : Word) : s.raise e info = s.finish e 0#8 info := rfl

@[simp] theorem State.setOp_cfg (w : Word) : (s.setOp w).cfg = s.cfg := rfl
@[simp] theorem State.setOp_op (w : Word) : (s.setOp w).op = w := rfl
@[simp] theorem State.setOp_arg (w : Word) : (s.setOp w).arg = s.arg := rfl
@[simp] theorem State.setOp_result (w : Word) : (s.setOp w).result = s.result := rfl
@[simp] theorem State.setOp_status (w : Word) : (s.setOp w).status = s.status := rfl
@[simp] theorem State.setOp_ch0 (w : Word) : (s.setOp w).ch0 = s.ch0 := rfl
@[simp] theorem State.setOp_ch1 (w : Word) : (s.setOp w).ch1 = s.ch1 := rfl
@[simp] theorem State.setOp_ch2 (w : Word) : (s.setOp w).ch2 = s.ch2 := rfl
@[simp] theorem State.setOp_ch3 (w : Word) : (s.setOp w).ch3 = s.ch3 := rfl
@[simp] theorem State.setOp_buf (w : Word) : (s.setOp w).buf = s.buf := rfl
@[simp] theorem State.setOp_pending (w : Word) : (s.setOp w).pending = s.pending := rfl
@[simp] theorem State.setOp_lastRead (w : Word) : (s.setOp w).lastRead = s.lastRead := rfl

@[simp] theorem State.setArg_cfg (v : Word) : (s.setArg v).cfg = s.cfg := rfl
@[simp] theorem State.setArg_op (v : Word) : (s.setArg v).op = s.op := rfl
@[simp] theorem State.setArg_arg (v : Word) : (s.setArg v).arg = v := rfl
@[simp] theorem State.setArg_result (v : Word) : (s.setArg v).result = s.result := rfl
@[simp] theorem State.setArg_status (v : Word) : (s.setArg v).status = s.status := rfl
@[simp] theorem State.setArg_ch0 (v : Word) : (s.setArg v).ch0 = s.ch0 := rfl
@[simp] theorem State.setArg_ch1 (v : Word) : (s.setArg v).ch1 = s.ch1 := rfl
@[simp] theorem State.setArg_ch2 (v : Word) : (s.setArg v).ch2 = s.ch2 := rfl
@[simp] theorem State.setArg_ch3 (v : Word) : (s.setArg v).ch3 = s.ch3 := rfl
@[simp] theorem State.setArg_buf (v : Word) : (s.setArg v).buf = s.buf := rfl
@[simp] theorem State.setArg_pending (v : Word) : (s.setArg v).pending = s.pending := rfl
@[simp] theorem State.setArg_lastRead (v : Word) : (s.setArg v).lastRead = s.lastRead := rfl

@[simp] theorem State.setBuf_cfg (m : Memory) : (s.setBuf m).cfg = s.cfg := rfl
@[simp] theorem State.setBuf_op (m : Memory) : (s.setBuf m).op = s.op := rfl
@[simp] theorem State.setBuf_arg (m : Memory) : (s.setBuf m).arg = s.arg := rfl
@[simp] theorem State.setBuf_result (m : Memory) : (s.setBuf m).result = s.result := rfl
@[simp] theorem State.setBuf_status (m : Memory) : (s.setBuf m).status = s.status := rfl
@[simp] theorem State.setBuf_ch0 (m : Memory) : (s.setBuf m).ch0 = s.ch0 := rfl
@[simp] theorem State.setBuf_ch1 (m : Memory) : (s.setBuf m).ch1 = s.ch1 := rfl
@[simp] theorem State.setBuf_ch2 (m : Memory) : (s.setBuf m).ch2 = s.ch2 := rfl
@[simp] theorem State.setBuf_ch3 (m : Memory) : (s.setBuf m).ch3 = s.ch3 := rfl
@[simp] theorem State.setBuf_buf (m : Memory) : (s.setBuf m).buf = m := rfl
@[simp] theorem State.setBuf_pending (m : Memory) : (s.setBuf m).pending = s.pending := rfl
@[simp] theorem State.setBuf_lastRead (m : Memory) : (s.setBuf m).lastRead = s.lastRead := rfl

@[simp] theorem State.setChannels_cfg (c0 c1 c2 c3 : Word) : (s.setChannels c0 c1 c2 c3).cfg = s.cfg := rfl
@[simp] theorem State.setChannels_op (c0 c1 c2 c3 : Word) : (s.setChannels c0 c1 c2 c3).op = s.op := rfl
@[simp] theorem State.setChannels_arg (c0 c1 c2 c3 : Word) : (s.setChannels c0 c1 c2 c3).arg = s.arg := rfl
@[simp] theorem State.setChannels_result (c0 c1 c2 c3 : Word) : (s.setChannels c0 c1 c2 c3).result = s.result := rfl
@[simp] theorem State.setChannels_status (c0 c1 c2 c3 : Word) : (s.setChannels c0 c1 c2 c3).status = s.status := rfl
@[simp] theorem State.setChannels_ch0 (c0 c1 c2 c3 : Word) : (s.setChannels c0 c1 c2 c3).ch0 = c0 := rfl
@[simp] theorem State.setChannels_ch1 (c0 c1 c2 c3 : Word) : (s.setChannels c0 c1 c2 c3).ch1 = c1 := rfl
@[simp] theorem State.setChannels_ch2 (c0 c1 c2 c3 : Word) : (s.setChannels c0 c1 c2 c3).ch2 = c2 := rfl
@[simp] theorem State.setChannels_ch3 (c0 c1 c2 c3 : Word) : (s.setChannels c0 c1 c2 c3).ch3 = c3 := rfl
@[simp] theorem State.setChannels_buf (c0 c1 c2 c3 : Word) : (s.setChannels c0 c1 c2 c3).buf = s.buf := rfl
@[simp] theorem State.setChannels_pending (c0 c1 c2 c3 : Word) : (s.setChannels c0 c1 c2 c3).pending = s.pending := rfl
@[simp] theorem State.setChannels_lastRead (c0 c1 c2 c3 : Word) : (s.setChannels c0 c1 c2 c3).lastRead = s.lastRead := rfl

@[simp] theorem State.setLastRead_cfg (v : Word) : (s.setLastRead v).cfg = s.cfg := rfl
@[simp] theorem State.setLastRead_op (v : Word) : (s.setLastRead v).op = s.op := rfl
@[simp] theorem State.setLastRead_arg (v : Word) : (s.setLastRead v).arg = s.arg := rfl
@[simp] theorem State.setLastRead_result (v : Word) : (s.setLastRead v).result = s.result := rfl
@[simp] theorem State.setLastRead_status (v : Word) : (s.setLastRead v).status = s.status := rfl
@[simp] theorem State.setLastRead_ch0 (v : Word) : (s.setLastRead v).ch0 = s.ch0 := rfl
@[simp] theorem State.setLastRead_ch1 (v : Word) : (s.setLastRead v).ch1 = s.ch1 := rfl
@[simp] theorem State.setLastRead_ch2 (v : Word) : (s.setLastRead v).ch2 = s.ch2 := rfl
@[simp] theorem State.setLastRead_ch3 (v : Word) : (s.setLastRead v).ch3 = s.ch3 := rfl
@[simp] theorem State.setLastRead_buf (v : Word) : (s.setLastRead v).buf = s.buf := rfl
@[simp] theorem State.setLastRead_pending (v : Word) : (s.setLastRead v).pending = s.pending := rfl
@[simp] theorem State.setLastRead_lastRead (v : Word) : (s.setLastRead v).lastRead = some v := rfl

@[simp] theorem State.setPending_cfg (rest : List BusInput) : (s.setPending rest).cfg = s.cfg := rfl
@[simp] theorem State.setPending_op (rest : List BusInput) : (s.setPending rest).op = s.op := rfl
@[simp] theorem State.setPending_arg (rest : List BusInput) : (s.setPending rest).arg = s.arg := rfl
@[simp] theorem State.setPending_result (rest : List BusInput) : (s.setPending rest).result = s.result := rfl
@[simp] theorem State.setPending_status (rest : List BusInput) : (s.setPending rest).status = s.status := rfl
@[simp] theorem State.setPending_ch0 (rest : List BusInput) : (s.setPending rest).ch0 = s.ch0 := rfl
@[simp] theorem State.setPending_ch1 (rest : List BusInput) : (s.setPending rest).ch1 = s.ch1 := rfl
@[simp] theorem State.setPending_ch2 (rest : List BusInput) : (s.setPending rest).ch2 = s.ch2 := rfl
@[simp] theorem State.setPending_ch3 (rest : List BusInput) : (s.setPending rest).ch3 = s.ch3 := rfl
@[simp] theorem State.setPending_buf (rest : List BusInput) : (s.setPending rest).buf = s.buf := rfl
@[simp] theorem State.setPending_pending (rest : List BusInput) : (s.setPending rest).pending = rest := rfl
@[simp] theorem State.setPending_lastRead (rest : List BusInput) : (s.setPending rest).lastRead = s.lastRead := rfl

@[simp] theorem State.finish_cfg (e : ErrCode) (len : BitVec 8) (res : Word) : (s.finish e len res).cfg = s.cfg := rfl
@[simp] theorem State.finish_op (e : ErrCode) (len : BitVec 8) (res : Word) : (s.finish e len res).op = s.op := rfl
@[simp] theorem State.finish_arg (e : ErrCode) (len : BitVec 8) (res : Word) : (s.finish e len res).arg = s.arg := rfl
@[simp] theorem State.finish_result (e : ErrCode) (len : BitVec 8) (res : Word) : (s.finish e len res).result = res := rfl
@[simp] theorem State.finish_status (e : ErrCode) (len : BitVec 8) (res : Word) : (s.finish e len res).status = statusWord e len := rfl
@[simp] theorem State.finish_ch0 (e : ErrCode) (len : BitVec 8) (res : Word) : (s.finish e len res).ch0 = s.ch0 := rfl
@[simp] theorem State.finish_ch1 (e : ErrCode) (len : BitVec 8) (res : Word) : (s.finish e len res).ch1 = s.ch1 := rfl
@[simp] theorem State.finish_ch2 (e : ErrCode) (len : BitVec 8) (res : Word) : (s.finish e len res).ch2 = s.ch2 := rfl
@[simp] theorem State.finish_ch3 (e : ErrCode) (len : BitVec 8) (res : Word) : (s.finish e len res).ch3 = s.ch3 := rfl
@[simp] theorem State.finish_buf (e : ErrCode) (len : BitVec 8) (res : Word) : (s.finish e len res).buf = s.buf := rfl
@[simp] theorem State.finish_pending (e : ErrCode) (len : BitVec 8) (res : Word) : (s.finish e len res).pending = s.pending := rfl
@[simp] theorem State.finish_lastRead (e : ErrCode) (len : BitVec 8) (res : Word) : (s.finish e len res).lastRead = s.lastRead := rfl

end Sys2Proof.Machine
end

