-- ==== Sys2Proof/Laws/Memory.lean ====
section
/-! SUPPORT. BUF as a memory: read after write, the canonical form kept by every write, and equal reads mean equal memories. -/

namespace Sys2Proof.Machine

theorem Memory.wf_nil : Memory.wf [] := ⟨List.Pairwise.nil, by simp⟩

theorem Memory.wf_tail {c : Host.Cell} {m : Memory} (h : Memory.wf (c :: m)) : m.wf :=
  ⟨(List.pairwise_cons.mp h.1).2, fun d hd => h.2 d (List.mem_cons_of_mem _ hd)⟩

theorem Memory.wf_head_lt {c : Host.Cell} {m : Memory} (h : Memory.wf (c :: m)) : ∀ d ∈ m, c.1 < d.1 :=
  (List.pairwise_cons.mp h.1).1

/-- An index below every listed one is not listed. -/
theorem Memory.readByte_of_lt {m : Memory} {a : Nat} (h : ∀ c ∈ m, a < c.1) : m.readByte a = unlistedByte := by
  induction m with
  | nil => rfl
  | cons c m ih =>
    have hc : a < c.1 := h c (List.mem_cons_self ..)
    rw [Memory.readByte, if_neg (by omega)]
    exact ih fun d hd => h d (List.mem_cons_of_mem _ hd)

/-- An index above every listed one is not listed. -/
theorem Memory.readByte_of_below {m : Memory} {n a : Nat} (h : m.below n) (ha : n ≤ a) : m.readByte a = unlistedByte := by
  induction m with
  | nil => rfl
  | cons c m ih =>
    have hc : c.1 < n := h c (List.mem_cons_self ..)
    rw [Memory.readByte, if_neg (by omega)]
    exact ih fun d hd => h d (List.mem_cons_of_mem _ hd)

theorem Memory.mem_listed {a : Nat} {v : Byte} {m : Memory} {c : Host.Cell} (h : c ∈ Memory.listed a v m) :
    c = (a, v) ∧ v ≠ unlistedByte ∨ c ∈ m := by
  unfold Memory.listed at h
  split at h
  · exact .inr h
  · rcases List.mem_cons.mp h with h | h
    · exact .inl ⟨h, ‹_›⟩
    · exact .inr h

theorem Memory.listed_wf {a : Nat} {v : Byte} {m : Memory} (h : m.wf) (ha : ∀ c ∈ m, a < c.1) :
    (Memory.listed a v m).wf := by
  refine ⟨?_, fun c hc => ?_⟩
  · unfold Memory.listed
    split
    · exact h.1
    · exact List.pairwise_cons.mpr ⟨ha, h.1⟩
  · rcases Memory.mem_listed hc with ⟨rfl, hv⟩ | hc
    · exact hv
    · exact h.2 c hc

theorem Memory.readByte_listed {a : Nat} {v : Byte} {m : Memory} (ha : ∀ c ∈ m, a < c.1) (b : Nat) :
    (Memory.listed a v m).readByte b = if b = a then v else m.readByte b := by
  unfold Memory.listed
  by_cases hb : b = a
  · subst hb
    split
    · rw [if_pos rfl, Memory.readByte_of_lt ha, ‹v = _›]
    · simp [Memory.readByte]
  · split <;> simp [Memory.readByte, Ne.symm hb]

/-- A write adds no index but its own. -/
theorem Memory.mem_writeByte {m : Memory} {a : Nat} {v : Byte} {c : Host.Cell} (h : c ∈ m.writeByte a v) : c.1 = a ∨ c ∈ m := by
  induction m with
  | nil => rcases Memory.mem_listed h with ⟨rfl, -⟩ | h <;> simp_all
  | cons d m ih =>
    unfold Memory.writeByte at h
    split at h
    · rcases List.mem_cons.mp h with h | h
      · exact .inr (h ▸ List.mem_cons_self ..)
      · exact (ih h).imp_right (List.mem_cons_of_mem _)
    · split at h <;> rcases Memory.mem_listed h with ⟨rfl, -⟩ | h
      · exact .inl rfl
      · exact .inr (List.mem_cons_of_mem _ h)
      · exact .inl rfl
      · exact .inr h

/-- Writing a byte keeps the canonical form. -/
theorem Memory.writeByte_wf {m : Memory} (h : m.wf) (a : Nat) (v : Byte) : (m.writeByte a v).wf := by
  induction m with
  | nil => exact Memory.listed_wf Memory.wf_nil (by simp)
  | cons d m ih =>
    have hlt := Memory.wf_head_lt h
    unfold Memory.writeByte
    split
    · have ih := ih (Memory.wf_tail h)
      refine ⟨List.pairwise_cons.mpr ⟨fun c hc => ?_, ih.1⟩, fun c hc => ?_⟩
      · rcases Memory.mem_writeByte hc with hca | hc
        · show d.1 < c.1
          omega
        · exact hlt c hc
      · rcases List.mem_cons.mp hc with rfl | hc
        · exact h.2 _ (List.mem_cons_self ..)
        · exact ih.2 c hc
    · split
      · exact Memory.listed_wf (Memory.wf_tail h) fun c hc => by have : d.1 < c.1 := hlt c hc; omega
      · refine Memory.listed_wf h fun c hc => ?_
        rcases List.mem_cons.mp hc with rfl | hc
        · show a < d.1
          omega
        · have : d.1 < c.1 := hlt c hc
          omega

/-- Writing a byte inside the bounds keeps every index inside them. -/
theorem Memory.writeByte_below {m : Memory} {n a : Nat} (h : m.below n) (ha : a < n) (v : Byte) : (m.writeByte a v).below n :=
  fun c hc => (Memory.mem_writeByte hc).elim (fun e => e ▸ ha) (h c)

/-- A read after a write: the byte written at its index, every other index as before. -/
theorem Memory.readByte_writeByte {m : Memory} (h : m.wf) (a : Nat) (v : Byte) (b : Nat) :
    (m.writeByte a v).readByte b = if b = a then v else m.readByte b := by
  induction m with
  | nil => exact Memory.readByte_listed (by simp) b
  | cons d m ih =>
    obtain ⟨k, x⟩ := d
    have hlt : ∀ c ∈ m, k < c.1 := Memory.wf_head_lt h
    unfold Memory.writeByte
    split
    · rw [Memory.readByte, ih (Memory.wf_tail h), Memory.readByte]
      by_cases hk : k = b
      · rw [if_pos hk, if_pos hk, if_neg (by omega)]
      · rw [if_neg hk, if_neg hk]
    · split
      · subst k
        rw [Memory.readByte_listed hlt, Memory.readByte]
        by_cases hb : b = a
        · rw [if_pos hb, if_pos hb]
        · rw [if_neg hb, if_neg hb, if_neg (Ne.symm hb)]
      · refine Memory.readByte_listed (fun c hc => ?_) b
        rcases List.mem_cons.mp hc with rfl | hc
        · show a < k
          omega
        · have := hlt c hc
          omega

/-- Writing a byte sequence keeps the canonical form. -/
theorem Memory.writeBytes_wf {m : Memory} (h : m.wf) (a : Nat) (vs : List Byte) : (m.writeBytes a vs).wf := by
  induction vs generalizing m a with
  | nil => exact h
  | cons v vs ih => exact ih (Memory.writeByte_wf h a v) (a + 1)

/-- Writing a byte sequence inside the bounds keeps every index inside them. -/
theorem Memory.writeBytes_below {m : Memory} {n a : Nat} (h : m.below n) (vs : List Byte) (ha : a + vs.length ≤ n) :
    (m.writeBytes a vs).below n := by
  induction vs generalizing m a with
  | nil => exact h
  | cons v vs ih =>
    rw [List.length_cons] at ha
    exact ih (Memory.writeByte_below h (by omega) v) (by omega)

/-- A read after a write of a byte sequence: the byte of the sequence inside its range, every other index as before. -/
theorem Memory.readByte_writeBytes {m : Memory} (h : m.wf) (a : Nat) (vs : List Byte) (b : Nat) :
    (m.writeBytes a vs).readByte b = if a ≤ b then (vs[b - a]?).getD (m.readByte b) else m.readByte b := by
  induction vs generalizing m a with
  | nil => simp [Memory.writeBytes]
  | cons v vs ih =>
    rw [Memory.writeBytes, ih (Memory.writeByte_wf h a v), Memory.readByte_writeByte h]
    by_cases hab : a + 1 ≤ b
    · have he : b - a = (b - (a + 1)) + 1 := by omega
      have hb : b ≠ a := by omega
      rw [if_pos hab, if_pos (by omega : a ≤ b), if_neg hb, he, List.getElem?_cons_succ]
    · rw [if_neg hab]
      by_cases hb : b = a
      · simp [hb]
      · rw [if_neg hb, if_neg (by omega)]

/-- Inside the range of a write the byte read is the byte written. -/
theorem Memory.readByte_writeBytes_inside {m : Memory} (h : m.wf) (a : Nat) (vs : List Byte) (j : Nat) (hj : j < vs.length) :
    (m.writeBytes a vs).readByte (a + j) = vs[j] := by
  rw [Memory.readByte_writeBytes h, if_pos (by omega)]
  simp [hj]

/-- Outside the range of a write every byte reads as before. -/
theorem Memory.readByte_writeBytes_outside {m : Memory} (h : m.wf) (a : Nat) (vs : List Byte) (b : Nat)
    (hb : b < a ∨ a + vs.length ≤ b) : (m.writeBytes a vs).readByte b = m.readByte b := by
  rw [Memory.readByte_writeBytes h]
  split
  · rw [List.getElem?_eq_none (by omega), Option.getD_none]
  · rfl

/-- Canonical memories that read the same are the same. -/
theorem Memory.ext_of_readByte {m m' : Memory} (h : m.wf) (h' : m'.wf) (hr : ∀ a, m.readByte a = m'.readByte a) : m = m' := by
  induction m generalizing m' with
  | nil =>
    cases m' with
    | nil => rfl
    | cons d m' =>
      obtain ⟨k, x⟩ := d
      have := hr k
      rw [Memory.readByte, Memory.readByte, if_pos rfl] at this
      exact absurd this.symm (h'.2 (k, x) (List.mem_cons_self ..))
  | cons c m ih =>
    cases m' with
    | nil =>
      obtain ⟨k, x⟩ := c
      have := hr k
      rw [show Memory.readByte ((k, x) :: m) k = x from if_pos rfl] at this
      exact absurd this (h.2 (k, x) (List.mem_cons_self ..))
    | cons d m' =>
      obtain ⟨k, x⟩ := c
      obtain ⟨l, y⟩ := d
      have hx : x ≠ unlistedByte := h.2 (k, x) (List.mem_cons_self ..)
      have hy : y ≠ unlistedByte := h'.2 (l, y) (List.mem_cons_self ..)
      have hm : ∀ e ∈ m, k < e.1 := Memory.wf_head_lt h
      have hm' : ∀ e ∈ m', l < e.1 := Memory.wf_head_lt h'
      have hkl : k = l := by
        rcases Nat.lt_trichotomy k l with hlt | heq | hlt
        · have := hr k
          rw [Memory.readByte, if_pos rfl, Memory.readByte, if_neg (by omega),
            Memory.readByte_of_lt fun e he => by have := hm' e he; omega] at this
          exact absurd this hx
        · exact heq
        · have := hr l
          rw [Memory.readByte, if_neg (by omega), Memory.readByte, if_pos rfl,
            Memory.readByte_of_lt fun e he => by have := hm e he; omega] at this
          exact absurd this.symm hy
      subst hkl
      have hxy : x = y := by simpa [Memory.readByte] using hr k
      subst hxy
      refine congrArg _ (ih (Memory.wf_tail h) (Memory.wf_tail h') fun a => ?_)
      by_cases ha : k = a
      · subst ha
        rw [Memory.readByte_of_lt hm, Memory.readByte_of_lt hm']
      · simpa [Memory.readByte, ha] using hr a

end Sys2Proof.Machine
end

