-- ==== Sys2Proof/Laws/Ops.lean ====
section
/-! SUPPORT. One lemma per shared operation that says everything it can do: STATUS, the bounds check, the size check. -/

namespace Sys2Proof.Machine

/-- STATUS as the host reads it (spec 10_state.md R19). -/
theorem statusWord_toNat (e : ErrCode) (len : BitVec 8) : (statusWord e len).toNat = 256 * len.toNat + e.code.toNat := by
  have he : e.code.toNat < 16 := e.code.isLt
  have hl : len.toNat < 256 := len.isLt
  simp only [statusWord, BitVec.toNat_append, BitVec.toNat_ofNat]
  rw [← Nat.shiftLeft_add_eq_or_of_lt (by omega), ← Nat.shiftLeft_add_eq_or_of_lt (by omega),
    ← Nat.shiftLeft_add_eq_or_of_lt (by omega)]
  simp only [Nat.shiftLeft_eq]
  omega

theorem errOf_toNat (w : Word) : (errOf w).toNat = w.toNat % 16 := by
  simp [errOf, BitVec.extractLsb'_toNat]

theorem lenOf_toNat (w : Word) : (lenOf w).toNat = w.toNat / 256 % 256 := by
  simp [lenOf, BitVec.extractLsb'_toNat, Nat.shiftRight_eq_div_pow]

@[simp] theorem errOf_statusWord (e : ErrCode) (len : BitVec 8) : errOf (statusWord e len) = e.code := by
  have he : e.code.toNat < 16 := e.code.isLt
  apply BitVec.eq_of_toNat_eq
  rw [errOf_toNat, statusWord_toNat]
  omega

@[simp] theorem lenOf_statusWord (e : ErrCode) (len : BitVec 8) : lenOf (statusWord e len) = len := by
  have he : e.code.toNat < 16 := e.code.isLt
  have hl : len.toNat < 256 := len.isLt
  apply BitVec.eq_of_toNat_eq
  rw [lenOf_toNat, statusWord_toNat]
  omega

/-- `finish` leaves a STATUS the block can hold. -/
@[simp] theorem statusLegal_statusWord (e : ErrCode) (len : BitVec 8) : statusLegal (statusWord e len) = true := by
  have he : e.code.toNat ≤ 3 := by cases e <;> decide
  have hl : len.toNat < 256 := len.isLt
  have h := statusWord_toNat e len
  have h4 : (statusWord e len).extractLsb' 4 4 = 0#4 := by
    apply BitVec.eq_of_toNat_eq
    rw [BitVec.extractLsb'_toNat, h, Nat.shiftRight_eq_div_pow]
    show _ = 0
    omega
  have h16 : (statusWord e len).extractLsb' 16 16 = 0#16 := by
    apply BitVec.eq_of_toNat_eq
    rw [BitVec.extractLsb'_toNat, h, Nat.shiftRight_eq_div_pow]
    show _ = 0
    omega
  simp [statusLegal, h4, h16, he]

@[simp] theorem State.errField_finish (s : State) (e : ErrCode) (len : BitVec 8) (res : Word) :
    (s.finish e len res).errField = e.code := errOf_statusWord e len

@[simp] theorem State.lenField_finish (s : State) (e : ErrCode) (len : BitVec 8) (res : Word) :
    (s.finish e len res).lenField = len := lenOf_statusWord e len

/-- An access inside BUF goes through. -/
theorem guardBuf_of_le {s t : State} {a n : Nat} (h : a + n ≤ s.cfg.bufBytes) : guardBuf s a n t = .next t := if_pos h

/-- What `guardBuf` can answer with a next state. -/
theorem guardBuf_next {s t u : State} {a n : Nat} (h : guardBuf s a n t = .next u) : a + n ≤ s.cfg.bufBytes ∧ u = t := by
  unfold guardBuf at h
  split at h
  · exact ⟨‹_›, (Host.Outcome.next.inj h).symm⟩
  · cases h

theorem guardBuf_not_refused {s t : State} {a n : Nat} {r : Refusal} : guardBuf s a n t ≠ .refused r := by
  unfold guardBuf
  split <;> exact nofun

/-- The decoder's size check and the well-formedness check agree (spec 30_encoding.md R49). -/
theorem legalSize_eq_sizeFits (bufBytes : Nat) (size : BitVec 8) : legalSize bufBytes size = sizeFits bufBytes size := rfl

/-- The size check as a proposition. -/
theorem legalSize_iff {bufBytes : Nat} {size : BitVec 8} :
    legalSize bufBytes size = true ↔ size.toNat % 2 = 0 ∧ size.toNat + size.toNat / 2 ≤ bufBytes := by
  simp [legalSize]

theorem withLegalSize_of_legal {s : State} {size : BitVec 8} {o : Outcome} (h : legalSize s.cfg.bufBytes size = true) :
    withLegalSize s size o = o := if_pos h

theorem withLegalSize_of_illegal {s : State} {size : BitVec 8} {o : Outcome} (h : legalSize s.cfg.bufBytes size = false) :
    withLegalSize s size o = .next (s.finish .illegal 0#8 0#32) := if_neg (by simp [h])

/-- What `withLegalSize` can answer with a next state. -/
theorem withLegalSize_next {s t : State} {size : BitVec 8} {o : Outcome} (h : withLegalSize s size o = .next t) :
    legalSize s.cfg.bufBytes size = true ∧ o = .next t ∨
      legalSize s.cfg.bufBytes size = false ∧ t = s.finish .illegal 0#8 0#32 := by
  unfold withLegalSize at h
  split at h
  · exact .inl ⟨‹_›, h⟩
  · exact .inr ⟨Bool.eq_false_iff.mpr ‹_›, (Host.Outcome.next.inj h).symm⟩

end Sys2Proof.Machine
end

