-- ==== Sys2Proof/Laws/Build.lean ====
section
/-! SUPPORT. The builder's shared parts: a frame's length, and the two answers of `buildFrame` and `buildRead`. -/

namespace Sys2Proof.Machine

/-- Two code bytes and three bytes per payload word (spec 30_encoding.md R52). -/
@[simp] theorem frameBytes_length (c : Config) (k : Command) (payload : List Half) :
    (frameBytes c k payload).length = 2 + 3 * payload.length := by
  have h : ∀ ws : List Half, (ws.flatMap (groupBytes c.crcInit)).length = 3 * ws.length := by
    intro ws
    induction ws with
    | nil => rfl
    | cons w ws ih =>
      rw [List.flatMap_cons, List.length_append, ih, List.length_cons]
      show 3 + _ = _
      omega
  rw [frameBytes, List.length_append, h]
  rfl

/-- The state a BUILD of this frame leaves (spec 41_frame_builder.md R71). -/
def builtState (k : Command) (payload : List Half) (res : Word) (s : State) : State :=
  (s.setBuf (s.buf.writeBytes 0 (frameBytes s.cfg k payload))).finish .ok (BitVec.ofNat 8 (2 + 3 * payload.length)) res

/-- With legal parameters every frame of at most two payload words fits. -/
theorem buildFrame_of_wf {k : Command} {payload : List Half} {res : Word} {s : State} (h : s.cfg.wf) (hp : payload.length ≤ 2) :
    buildFrame k payload res s = .next (builtState k payload res s) := by
  have hb : 24 ≤ s.cfg.bufBytes := h.2.1
  rw [buildFrame, frameBytes_length]
  exact guardBuf_of_le (by omega)

/-- What `buildFrame` can answer with a next state. -/
theorem buildFrame_next {k : Command} {payload : List Half} {res : Word} {s t : State}
    (h : buildFrame k payload res s = .next t) :
    2 + 3 * payload.length ≤ s.cfg.bufBytes ∧ t = builtState k payload res s := by
  rw [buildFrame, frameBytes_length] at h
  obtain ⟨hb, rfl⟩ := guardBuf_next h
  exact ⟨by omega, rfl⟩

/-- What a BUILD of a read command can answer with a next state. -/
theorem buildRead_next {k : Command} {size : BitVec 8} {s t : State} (h : buildRead k size s = .next t) :
    legalSize s.cfg.bufBytes size = true ∧ 2 ≤ s.cfg.bufBytes ∧ t = builtState k [] (BitVec.ofNat 32 (wireLength size)) s ∨
      legalSize s.cfg.bufBytes size = false ∧ t = s.finish .illegal 0#8 0#32 := by
  rcases withLegalSize_next h with ⟨hl, h⟩ | h
  · obtain ⟨hb, rfl⟩ := buildFrame_next h
    exact .inl ⟨hl, by simpa using hb, rfl⟩
  · exact .inr h

end Sys2Proof.Machine
end

