-- ==== Sys2Proof/Laws/Decode.lean ====
section
/-! SUPPORT. The fields of an operation word and of a packed word. -/

namespace Sys2Proof

theorem fieldOpc_toNat (w : Word) : (fieldOpc w).toNat = w.toNat % 16 := by
  simp [fieldOpc, BitVec.extractLsb'_toNat]

theorem fieldCmd_toNat (w : Word) : (fieldCmd w).toNat = w.toNat / 16 % 16 := by
  simp [fieldCmd, BitVec.extractLsb'_toNat, Nat.shiftRight_eq_div_pow]

theorem fieldSize_toNat (w : Word) : (fieldSize w).toNat = w.toNat / 256 % 256 := by
  simp [fieldSize, BitVec.extractLsb'_toNat, Nat.shiftRight_eq_div_pow]

theorem fieldRsv_toNat (w : Word) : (fieldRsv w).toNat = w.toNat / 65536 % 65536 := by
  simp [fieldRsv, BitVec.extractLsb'_toNat, Nat.shiftRight_eq_div_pow]

/-- The packed word as a number: `(SIZE << 8) | (CMD << 4) | OPC` (spec 30_encoding.md R46). -/
theorem packWord_toNat (size : BitVec 8) (cmd opc : BitVec 4) :
    (packWord size cmd opc).toNat = size.toNat * 256 + cmd.toNat * 16 + opc.toNat := by
  have hs : size.toNat < 256 := size.isLt
  have hc : cmd.toNat < 16 := cmd.isLt
  have ho : opc.toNat < 16 := opc.isLt
  simp only [packWord, BitVec.toNat_append, BitVec.toNat_ofNat]
  rw [← Nat.shiftLeft_add_eq_or_of_lt (by omega), ← Nat.shiftLeft_add_eq_or_of_lt (by omega),
    ← Nat.shiftLeft_add_eq_or_of_lt (by omega)]
  simp only [Nat.shiftLeft_eq]
  omega

@[simp] theorem fieldOpc_packWord (size : BitVec 8) (cmd opc : BitVec 4) : fieldOpc (packWord size cmd opc) = opc := by
  have ho : opc.toNat < 16 := opc.isLt
  apply BitVec.eq_of_toNat_eq
  rw [fieldOpc_toNat, packWord_toNat]
  omega

@[simp] theorem fieldCmd_packWord (size : BitVec 8) (cmd opc : BitVec 4) : fieldCmd (packWord size cmd opc) = cmd := by
  have hc : cmd.toNat < 16 := cmd.isLt
  have ho : opc.toNat < 16 := opc.isLt
  apply BitVec.eq_of_toNat_eq
  rw [fieldCmd_toNat, packWord_toNat]
  omega

@[simp] theorem fieldSize_packWord (size : BitVec 8) (cmd opc : BitVec 4) : fieldSize (packWord size cmd opc) = size := by
  have hs : size.toNat < 256 := size.isLt
  have hc : cmd.toNat < 16 := cmd.isLt
  have ho : opc.toNat < 16 := opc.isLt
  apply BitVec.eq_of_toNat_eq
  rw [fieldSize_toNat, packWord_toNat]
  omega

@[simp] theorem fieldRsv_packWord (size : BitVec 8) (cmd opc : BitVec 4) : fieldRsv (packWord size cmd opc) = 0#16 := by
  have hs : size.toNat < 256 := size.isLt
  have hc : cmd.toNat < 16 := cmd.isLt
  have ho : opc.toNat < 16 := opc.isLt
  apply BitVec.eq_of_toNat_eq
  rw [fieldRsv_toNat, packWord_toNat]
  show _ = 0
  omega

/-- A word whose RSV is 0 is its other three fields packed: no bit is left over. -/
theorem packWord_fields {w : Word} (h : fieldRsv w = 0#16) : packWord (fieldSize w) (fieldCmd w) (fieldOpc w) = w := by
  have hw : w.toNat < 4294967296 := w.isLt
  have hr : w.toNat / 65536 % 65536 = 0 := by rw [← fieldRsv_toNat, h]; rfl
  apply BitVec.eq_of_toNat_eq
  rw [packWord_toNat, fieldSize_toNat, fieldCmd_toNat, fieldOpc_toNat]
  omega

/-- Decoding a packed word is decoding its fields. -/
theorem decode_packWord (bufBytes : Nat) (size : BitVec 8) (cmd opc : BitVec 4) :
    decode bufBytes (packWord size cmd opc) = decodeFields bufBytes 0#16 size cmd opc := by
  rw [decode, fieldRsv_packWord, fieldSize_packWord, fieldCmd_packWord, fieldOpc_packWord]

end Sys2Proof
end

