-- ==== Sys2Proof/Laws/Parse.lean ====
section
/-! SUPPORT. The parser's shared parts: when a group is valid, what the first failing group is, and where each stripped byte comes from. -/

namespace Sys2Proof.Machine

theorem groupOk_iff {c : Byte} {m : Memory} {g : Nat} :
    groupOk c m g = true ↔ crc8 c (m.readByte (3 * g)) (m.readByte (3 * g + 1)) = m.readByte (3 * g + 2) := by
  simp [groupOk]

/-- No group fails exactly when all are valid. -/
theorem firstBad_eq_none {c : Byte} {m : Memory} {n : Nat} : firstBad c m n = none ↔ ∀ g < n, groupOk c m g = true := by
  simp [firstBad, List.find?_eq_none]

/-- The failing group found is the first one (spec 42_frame_parser.md R86). -/
theorem firstBad_eq_some {c : Byte} {m : Memory} {n g : Nat} :
    firstBad c m n = some g ↔ g < n ∧ groupOk c m g = false ∧ ∀ h < g, groupOk c m h = true := by
  rw [firstBad, List.find?_range_eq_some]
  constructor
  · rintro ⟨h1, h2, h3⟩
    exact ⟨List.mem_range.mp h2, by simpa using h1, fun j hj => by simpa using h3 j hj⟩
  · rintro ⟨h1, h2, h3⟩
    exact ⟨by simpa using h2, List.mem_range.mpr h1, fun j hj => by simpa using h3 j hj⟩

theorem strippedData_succ (m : Memory) (n : Nat) : strippedData m (n + 1) = strippedData m n ++ groupData m n := by
  simp [strippedData, List.range_succ]

@[simp] theorem strippedData_length (m : Memory) (n : Nat) : (strippedData m n).length = 2 * n := by
  induction n with
  | zero => rfl
  | succ n ih => rw [strippedData_succ, List.length_append, ih]; rfl

/-- Data byte 2g of the stripped data is the first byte of group g (spec 42_frame_parser.md R84). -/
theorem strippedData_even (m : Memory) {n g : Nat} (h : g < n) : (strippedData m n)[2 * g]? = some (m.readByte (3 * g)) := by
  induction n with
  | zero => omega
  | succ n ih =>
    rw [strippedData_succ]
    by_cases hg : g < n
    · rw [List.getElem?_append_left (by rw [strippedData_length]; omega), ih hg]
    · have : g = n := by omega
      subst this
      rw [List.getElem?_append_right (by rw [strippedData_length]), strippedData_length, Nat.sub_self]
      rfl

/-- Data byte 2g+1 of the stripped data is the second byte of group g (spec 42_frame_parser.md R84). -/
theorem strippedData_odd (m : Memory) {n g : Nat} (h : g < n) :
    (strippedData m n)[2 * g + 1]? = some (m.readByte (3 * g + 1)) := by
  induction n with
  | zero => omega
  | succ n ih =>
    rw [strippedData_succ]
    by_cases hg : g < n
    · rw [List.getElem?_append_left (by rw [strippedData_length]; omega), ih hg]
    · have : g = n := by omega
      subst this
      rw [List.getElem?_append_right (by rw [strippedData_length]; omega), strippedData_length,
        show 2 * g + 1 - 2 * g = 1 by omega]
      rfl

end Sys2Proof.Machine
end

