-- ==== Sys2Proof/Laws/Exec.lean ====
section
/-! SUPPORT. What an operation can do, said once per operation: the inversion lemmas of `exec` that later proofs cite. -/

namespace Sys2Proof.Machine

theorem parse_next {size : BitVec 8} {s t : State} (h : execParse size s = .next t) :
    legalSize s.cfg.bufBytes size = true ∧ t = parseState size s ∨
      legalSize s.cfg.bufBytes size = false ∧ t = s.finish .illegal 0#8 0#32 := by
  rcases withLegalSize_next h with ⟨hl, h⟩ | h
  · exact .inl ⟨hl, (guardBuf_next h).2⟩
  · exact .inr h

/-- A PARSE of a legal size always answers (the size check is the bounds check). -/
theorem execParse_of_legal {size : BitVec 8} {s : State} (h : legalSize s.cfg.bufBytes size = true) :
    execParse size s = .next (parseState size s) := by
  rw [execParse, withLegalSize_of_legal h]
  exact guardBuf_of_le (by rw [Nat.zero_add]; exact (legalSize_iff.mp h).2)

theorem sample_next {s t : State} (h : execSample s = .next t) : 24 ≤ s.cfg.bufBytes ∧ t = sampleState s := by
  obtain ⟨hb, rfl⟩ := guardBuf_next h
  exact ⟨by omega, rfl⟩

/-- With legal parameters SAMPLE always answers. -/
theorem execSample_of_wf {s : State} (h : s.cfg.wf) : execSample s = .next (sampleState s) :=
  guardBuf_of_le (by have := h.2.1; omega)

/-- The two ends of PARSE. -/
theorem parseState_cases (size : BitVec 8) (s : State) :
    (∃ g, firstBad s.cfg.crcInit s.buf (groupCount size) = some g ∧
      parseState size s = s.finish .checksum 0#8 (BitVec.ofNat 32 g)) ∨
    firstBad s.cfg.crcInit s.buf (groupCount size) = none ∧
      parseState size s = (s.setBuf (s.buf.writeBytes 0 (strippedData s.buf (groupCount size)))).finish .ok size
        (size.setWidth 32) := by
  unfold parseState
  split
  · exact .inl ⟨_, ‹_›, rfl⟩
  · exact .inr ⟨‹_›, rfl⟩

/-- The two ends of SAMPLE. -/
theorem sampleState_cases (s : State) :
    (∃ g, firstBad s.cfg.crcInit s.buf 8 = some g ∧ sampleState s = s.finish .checksum 0#8 (BitVec.ofNat 32 g)) ∨
    firstBad s.cfg.crcInit s.buf 8 = none ∧
      sampleState s = (s.setChannels (fdecWord (channelBits s.buf 0)) (fdecWord (channelBits s.buf 1))
        (fdecWord (channelBits s.buf 2)) (fdecWord (channelBits s.buf 3))).finish .ok 0#8 0#32 := by
  unfold sampleState
  split
  · exact .inl ⟨_, ‹_›, rfl⟩
  · exact .inr ⟨‹_›, rfl⟩

/-- The two ends of SETPER. -/
theorem setper_next {s t : State} (h : execBuildSetper s = .next t) :
    periodMax < s.period.toNat ∧ t = s.finish .arg 0#8 0#32 ∨
      ¬ periodMax < s.period.toNat ∧ 8 ≤ s.cfg.bufBytes ∧ t = builtState .setper [s.periodHigh, s.periodLow] 0#32 s := by
  unfold execBuildSetper at h
  split at h
  · exact .inl ⟨‹_›, (Host.Outcome.next.inj h).symm⟩
  · exact .inr ⟨‹_›, buildFrame_next h⟩

/-- Everything an operation can do to the state when it answers: an error writes STATUS and RESULT only; CRC, CHK and FDEC likewise;
BUILD and PARSE also write bytes at the start of BUF, as many as LEN says; SAMPLE also writes the channels. -/
theorem exec_next_cases {i : Instr} {s t : State} (h : exec i s = .next t) :
    (∃ e res, t = s.finish e 0#8 res) ∨
    (∃ bytes res, bytes.length ≤ s.cfg.bufBytes ∧ bytes.length < 256 ∧
      t = (s.setBuf (s.buf.writeBytes 0 bytes)).finish .ok (BitVec.ofNat 8 bytes.length) res) ∨
    (i = .sample ∧ t = (s.setChannels (fdecWord (channelBits s.buf 0)) (fdecWord (channelBits s.buf 1))
        (fdecWord (channelBits s.buf 2)) (fdecWord (channelBits s.buf 3))).finish .ok 0#8 0#32) := by
  have hbuild : ∀ {k : Command} {p : List Half} {res : Word}, p.length ≤ 2 → 2 + 3 * p.length ≤ s.cfg.bufBytes →
      ∃ (bytes : List Byte) (res' : Word), bytes.length ≤ s.cfg.bufBytes ∧ bytes.length < 256 ∧
        builtState k p res s = (s.setBuf (s.buf.writeBytes 0 bytes)).finish .ok (BitVec.ofNat 8 bytes.length) res' := by
    intro k p res hp hb
    refine ⟨frameBytes s.cfg k p, res, ?_, ?_, ?_⟩
    · rwa [frameBytes_length]
    · rw [frameBytes_length]; omega
    · rw [frameBytes_length]; rfl
  have hread : ∀ {k : Command} {size : BitVec 8}, buildRead k size s = .next t →
      (∃ e res, t = s.finish e 0#8 res) ∨ ∃ (bytes : List Byte) (res : Word), bytes.length ≤ s.cfg.bufBytes ∧
        bytes.length < 256 ∧ t = (s.setBuf (s.buf.writeBytes 0 bytes)).finish .ok (BitVec.ofNat 8 bytes.length) res := by
    intro k size hr
    rcases buildRead_next hr with ⟨-, hb, rfl⟩ | ⟨-, rfl⟩
    · exact .inr (hbuild (by simp) (by simpa using hb))
    · exact .inl ⟨_, _, rfl⟩
  have hcode : ∀ {k : Command} {p : List Half} {res : Word}, p.length ≤ 2 → buildFrame k p res s = .next t →
      ∃ (bytes : List Byte) (res : Word), bytes.length ≤ s.cfg.bufBytes ∧ bytes.length < 256 ∧
        t = (s.setBuf (s.buf.writeBytes 0 bytes)).finish .ok (BitVec.ofNat 8 bytes.length) res := by
    intro k p res hp hf
    obtain ⟨hb, rfl⟩ := buildFrame_next hf
    exact hbuild hp hb
  cases i with
  | crc => exact .inl ⟨_, _, (Host.Outcome.next.inj h).symm⟩
  | chk =>
    have h := Host.Outcome.next.inj h
    split at h <;> exact .inl ⟨_, _, h.symm⟩
  | fdec => exact .inl ⟨_, _, (Host.Outcome.next.inj h).symm⟩
  | buildStart => exact .inr (.inl (hcode (by simp) h))
  | buildStop => exact .inr (.inl (hcode (by simp) h))
  | buildReset => exact .inr (.inl (hcode (by simp) h))
  | buildRdrdy size => exact (hread h).imp_right .inl
  | buildRddata size => exact (hread h).imp_right .inl
  | buildRdser size => exact (hread h).imp_right .inl
  | buildClean => exact .inr (.inl (hcode (by simp) h))
  | buildSetper =>
    rcases setper_next h with ⟨-, rfl⟩ | ⟨-, hb, rfl⟩
    · exact .inl ⟨_, _, rfl⟩
    · exact .inr (.inl (hbuild (by simp) hb))
  | buildRdper size => exact (hread h).imp_right .inl
  | parse size =>
    rcases parse_next h with ⟨hl, rfl⟩ | ⟨-, rfl⟩
    · rcases parseState_cases size s with ⟨g, -, he⟩ | ⟨-, he⟩
      · exact .inl ⟨_, _, he⟩
      · obtain ⟨heven, hfit⟩ := legalSize_iff.mp hl
        have hlen : (strippedData s.buf (groupCount size)).length = size.toNat := by
          rw [strippedData_length, groupCount]; omega
        refine .inr (.inl ⟨strippedData s.buf (groupCount size), size.setWidth 32, ?_, ?_, ?_⟩)
        · omega
        · rw [hlen]; exact size.isLt
        · rw [he, hlen, BitVec.ofNat_toNat, BitVec.setWidth_eq]
    · exact .inl ⟨_, _, rfl⟩
  | sample =>
    obtain ⟨-, rfl⟩ := sample_next h
    rcases sampleState_cases s with ⟨g, -, he⟩ | ⟨-, he⟩
    · exact .inl ⟨_, _, he⟩
    · exact .inr (.inr ⟨rfl, he⟩)

end Sys2Proof.Machine
end

