-- ==== Sys2Proof/Laws/PerInstr.lean ====
section
/-! SUPPORT. One fact per constructor of Instr: its word has the fixed bits of its row in the opcode table. -/

namespace Sys2Proof.Laws.TableRow

/-- The row's mask, its bits outside SIZE where the row takes a SIZE (spec opcode_table.json, "mask"). -/
def mask : Instr → Word
  | .buildRdrdy _ => 0xFFFF00FF#32
  | .buildRddata _ => 0xFFFF00FF#32
  | .buildRdser _ => 0xFFFF00FF#32
  | .buildRdper _ => 0xFFFF00FF#32
  | .parse _ => 0xFFFF00FF#32
  | _ => 0xFFFFFFFF#32

/-- The row's match (spec opcode_table.json, "match"). -/
def pattern : Instr → Word
  | .crc => 0x00000001#32
  | .chk => 0x00000002#32
  | .fdec => 0x00000003#32
  | .buildStart => 0x00000004#32
  | .buildStop => 0x00000014#32
  | .buildReset => 0x00000024#32
  | .buildRdrdy _ => 0x00000034#32
  | .buildRddata _ => 0x00000044#32
  | .buildRdser _ => 0x00000054#32
  | .buildClean => 0x00000064#32
  | .buildSetper => 0x00000074#32
  | .buildRdper _ => 0x00000084#32
  | .parse _ => 0x00000005#32
  | .sample => 0x00000006#32

/-- The operation's word, seen through its row's mask, is the row's match. -/
def Statement (i : Instr) : Prop := encode i &&& mask i = pattern i

/-- A packed word seen through the mask of a row that takes a SIZE. -/
theorem masked_packWord (cmd opc : BitVec 4) (size : BitVec 8) :
    packWord size cmd opc &&& 0xFFFF00FF#32 = packWord 0#8 cmd opc := by
  have hm : (0xFFFF00FF#32 : Word) = (0xFFFF#16 ++ 0x00#8 ++ 0xF#4 ++ 0xF#4 : BitVec 32) := by decide
  rw [hm, packWord, packWord, BitVec.and_append, BitVec.and_append, BitVec.and_append]
  have hs : size &&& 0x00#8 = 0x00#8 := by simp
  have hc : ∀ x : BitVec 4, x &&& 0xF#4 = x := by decide
  rw [hs, hc, hc]
  rfl

theorem crc : Statement .crc := by unfold Statement; decide
theorem chk : Statement .chk := by unfold Statement; decide
theorem fdec : Statement .fdec := by unfold Statement; decide
theorem buildStart : Statement .buildStart := by unfold Statement; decide
theorem buildStop : Statement .buildStop := by unfold Statement; decide
theorem buildReset : Statement .buildReset := by unfold Statement; decide
theorem buildRdrdy (size : BitVec 8) : Statement (.buildRdrdy size) := masked_packWord 3#4 4#4 size
theorem buildRddata (size : BitVec 8) : Statement (.buildRddata size) := masked_packWord 4#4 4#4 size
theorem buildRdser (size : BitVec 8) : Statement (.buildRdser size) := masked_packWord 5#4 4#4 size
theorem buildClean : Statement .buildClean := by unfold Statement; decide
theorem buildSetper : Statement .buildSetper := by unfold Statement; decide
theorem buildRdper (size : BitVec 8) : Statement (.buildRdper size) := masked_packWord 8#4 4#4 size
theorem parse (size : BitVec 8) : Statement (.parse size) := masked_packWord 0#4 5#4 size
theorem sample : Statement .sample := by unfold Statement; decide

end Sys2Proof.Laws.TableRow
end

