-- ==== Sys2Proof/Laws/Step.lean ====
section
/-! SUPPORT. What one step can do: by the oldest input, the access check, the register map, and runs taken step by step. -/

namespace Sys2Proof.Machine

@[simp] theorem platformReset_cfg (s : State) : (platformReset s).cfg = s.cfg := rfl
@[simp] theorem platformReset_op (s : State) : (platformReset s).op = 0#32 := rfl
@[simp] theorem platformReset_arg (s : State) : (platformReset s).arg = 0#32 := rfl
@[simp] theorem platformReset_result (s : State) : (platformReset s).result = 0#32 := rfl
@[simp] theorem platformReset_status (s : State) : (platformReset s).status = 0#32 := rfl
@[simp] theorem platformReset_ch0 (s : State) : (platformReset s).ch0 = 0#32 := rfl
@[simp] theorem platformReset_ch1 (s : State) : (platformReset s).ch1 = 0#32 := rfl
@[simp] theorem platformReset_ch2 (s : State) : (platformReset s).ch2 = 0#32 := rfl
@[simp] theorem platformReset_ch3 (s : State) : (platformReset s).ch3 = 0#32 := rfl
@[simp] theorem platformReset_buf (s : State) : (platformReset s).buf = [] := rfl
@[simp] theorem platformReset_pending (s : State) : (platformReset s).pending = s.pending := rfl
@[simp] theorem platformReset_lastRead (s : State) : (platformReset s).lastRead = s.lastRead := rfl

theorem step_of_idle {s : State} (h : s.pending = []) : step s = .refused .noHostAccess := by
  simp [step, performOldest, h]

theorem step_of_read {s : State} {bits : Nat} {off : Offset} {rest : List BusInput} (h : s.pending = .read bits off :: rest) :
    step s = withAccess bits off (.next ((s.setPending rest).setLastRead (hostRead (s.setPending rest) off))) := by
  simp [step, performOldest, h, performInput]

theorem step_of_write {s : State} {bits : Nat} {off : Offset} {v : Word} {rest : List BusInput}
    (h : s.pending = .write bits off v :: rest) : step s = withAccess bits off (hostWrite off v (s.setPending rest)) := by
  simp [step, performOldest, h, performInput]

theorem step_of_reset {s : State} {rest : List BusInput} (h : s.pending = .platformReset :: rest) :
    step s = .next (platformReset (s.setPending rest)) := by
  simp [step, performOldest, h, performInput]

/-- An access of the interface goes through. -/
theorem withAccess_of_aligned {off : Offset} {o : Outcome} (h : off.toNat % 4 = 0) : withAccess 32 off o = o := by
  simp [withAccess, h]

/-- What `withAccess` can answer other than a refusal of its own. -/
theorem withAccess_cases (bits : Nat) (off : Offset) (o : Outcome) :
    (bits = 32 ∧ off.toNat % 4 = 0 ∧ withAccess bits off o = o) ∨
      ((bits ≠ 32 ∨ off.toNat % 4 ≠ 0) ∧ ∃ r, withAccess bits off o = .refused r) := by
  unfold withAccess
  by_cases hb : bits = 32
  · by_cases ho : off.toNat % 4 = 0
    · exact .inl ⟨hb, ho, by rw [if_neg (not_not_intro hb), if_neg (not_not_intro ho)]⟩
    · exact .inr ⟨.inr ho, _, by rw [if_neg (not_not_intro hb), if_pos ho]⟩
  · exact .inr ⟨.inl hb, _, if_pos hb⟩

theorem withAccess_next {bits : Nat} {off : Offset} {o : Outcome} {t : State} (h : withAccess bits off o = .next t) :
    bits = 32 ∧ off.toNat % 4 = 0 ∧ o = .next t := by
  rcases withAccess_cases bits off o with ⟨hb, ho, he⟩ | ⟨-, r, he⟩
  · exact ⟨hb, ho, he.symm.trans h⟩
  · exact absurd (he.symm.trans h) nofun

/-- A write to OP of a word that is dispatched runs its operation. -/
theorem startOperation_of_ok {s : State} {w : Word} {i : Instr} (h : decode s.cfg.bufBytes w = .ok i) :
    startOperation w s = exec i (s.setOp w) := by
  unfold startOperation
  rw [h]

/-- A write to OP of a word that is not dispatched ends ILLEGAL. -/
theorem startOperation_of_error {s : State} {w : Word} {e : DecodeError} (h : decode s.cfg.bufBytes w = .error e) :
    startOperation w s = .next ((s.setOp w).finish .illegal 0#8 0#32) := by
  unfold startOperation
  rw [h]
  rfl

/-- An offset below 0x20 is the offset of one of the eight registers, when it is a multiple of 4. -/
theorem windowMap_of_ge {bufBytes : Nat} {off : Offset} (h : 0x20 ≤ off.toNat) :
    windowMap bufBytes off =
      if bufBase ≤ off.toNat ∧ off.toNat < bufBase + bufBytes then .bufWord (off.toNat - bufBase) else .reserved := by
  have hne : ∀ n, n < 0x20 → off ≠ BitVec.ofNat 8 n := by
    rintro n hn rfl
    simp only [BitVec.toNat_ofNat] at h
    omega
  simp only [windowMap, hne 0x00 (by omega), hne 0x04 (by omega), hne 0x08 (by omega), hne 0x0C (by omega), hne 0x10 (by omega),
    hne 0x14 (by omega), hne 0x18 (by omega), hne 0x1C (by omega), if_false]

/-- BUF words in the map (spec 20_memory.md R29). -/
theorem windowMap_bufWord {bufBytes : Nat} {off : Offset} (h : bufBase ≤ off.toNat) (h' : off.toNat < bufBase + bufBytes) :
    windowMap bufBytes off = .bufWord (off.toNat - bufBase) := by
  have h20 : 0x20 ≤ off.toNat := Nat.le_trans (by decide : 0x20 ≤ bufBase) h
  rw [windowMap_of_ge h20]
  simp only [h, h', and_self, if_true]

/-- Reserved offsets in the map (spec 20_memory.md R29). -/
theorem windowMap_reserved {bufBytes : Nat} {off : Offset}
    (h : 0x20 ≤ off.toNat ∧ off.toNat < bufBase ∨ bufBase + bufBytes ≤ off.toNat) : windowMap bufBytes off = .reserved := by
  have hb : bufBase = 0x80 := rfl
  rw [windowMap_of_ge (by omega), if_neg (by omega)]

/-- A BUF word's index lies inside BUF. -/
theorem windowMap_eq_bufWord {bufBytes a : Nat} {off : Offset} (h : windowMap bufBytes off = .bufWord a) :
    off.toNat = bufBase + a ∧ a < bufBytes := by
  unfold windowMap at h
  repeat' split at h
  all_goals first | (simp only [reduceCtorEq] at h) | have ha := WindowReg.bufWord.inj h
  omega

/-- Only offset 0 is OP. -/
theorem windowMap_eq_op {bufBytes : Nat} {off : Offset} (h : windowMap bufBytes off = .op) : off = 0x00#8 := by
  unfold windowMap at h
  repeat' split at h
  all_goals first | assumption | cases h

/-- One step of a run, for any machine behind the host's interface. -/
theorem run_succ_eq (M : Host.Core) (k : Nat) (s : M.State) : M.run (k + 1) s =
    match M.step s with
    | .next s' => M.run k s'
    | .fault r => .fault r
    | .refused r => .refused r := rfl

/-- A run of `k + 1` steps whose first answers `t` is a run of `k` steps from `t`. -/
theorem core_run_succ {s t : State} (k : Nat) (h : step s = .next t) : Sys2Proof.core.run (k + 1) s = Sys2Proof.core.run k t := by
  have hs : Sys2Proof.core.step s = .next t := h
  rw [run_succ_eq Sys2Proof.core k s, hs]

/-- A run that answers a next state took a first step. -/
theorem core_run_succ_next {s t : State} {k : Nat} (h : Sys2Proof.core.run (k + 1) s = .next t) :
    ∃ s', step s = .next s' ∧ Sys2Proof.core.run k s' = .next t := by
  rw [run_succ_eq Sys2Proof.core k s] at h
  split at h
  · exact ⟨_, ‹_›, h⟩
  · cases h
  · cases h

/-- A run of `k` steps followed by one more. -/
theorem core_run_snoc {s t u : State} {k : Nat} (h : Sys2Proof.core.run k s = .next t) (h' : step t = .next u) :
    Sys2Proof.core.run (k + 1) s = .next u := by
  induction k generalizing s with
  | zero =>
    obtain rfl : s = t := Host.Outcome.next.inj h
    exact core_run_succ 0 h'
  | succ k ih =>
    obtain ⟨s', hs, hk⟩ := core_run_succ_next h
    rw [core_run_succ _ hs]
    exact ih hk

end Sys2Proof.Machine
end

