-- ==== Sys2Proof/Tests/Slice0.lean ====
section
/-! SUPPORT. The model's own tests. Words and expected values come from spec 30_encoding.md and 95_test_vectors.md, with that file's parameters.
Then, for every statement that has hypotheses, a named witness that meets them. -/

namespace Sys2Proof.Tests

open Sys2Proof.Machine Sys2Proof.Spec

-- Each `decide +kernel` would otherwise hold a checker thread of its own, and together they pass the memory limit.
set_option Elab.async false

/-! ## Helpers -/

/-- Reset, with ARG written. -/
def withArg (v : Word) : State := State.reset.setArg v

/-- Reset, with these bytes from BUF[0] on. -/
def withBytes (bytes : List Byte) : State := State.reset.setBuf (Memory.writeBytes [] 0 bytes)

/-- Reset, with these accesses to come. -/
def withQueue (queue : List BusInput) : State := State.reset.setPending queue

/-- One step in which `w` is written to OP. -/
def opWrite (w : Nat) (s : State) : Outcome := step (s.withFetchWord 32 w)

/-- What the host reads of the outcome: STATUS and RESULT. -/
def statusResult : Outcome → Option (Word × Word)
  | .next t => some (t.status, t.result)
  | .fault _ => none
  | .refused _ => none

/-- What the host reads of the outcome: STATUS, RESULT, BUF0 and BUF1. -/
def withTwoWords : Outcome → Option (Word × Word × Word × Word)
  | .next t => some (t.status, t.result, hostRead t 0x80#8, hostRead t 0x84#8)
  | .fault _ => none
  | .refused _ => none

/-- The channels after the outcome, in order. -/
def channels : Outcome → Option (List Word)
  | .next t => some [t.ch0, t.ch1, t.ch2, t.ch3]
  | .fault _ => none
  | .refused _ => none

/-- The state after the outcome, or reset where there is none. -/
def after : Outcome → State
  | .next t => t
  | .fault _ => State.reset
  | .refused _ => State.reset

/-- The 24 bytes of the response of vector E7. -/
def e7 : List Byte :=
  [0x41#8, 0x45#8, 0x34#8, 0x70#8, 0xA4#8, 0x82#8, 0x00#8, 0x00#8, 0x81#8, 0x00#8, 0x00#8, 0x81#8] ++
  [0x45#8, 0x5A#8, 0xDA#8, 0xC0#8, 0x00#8, 0x2B#8, 0x42#8, 0x36#8, 0xB2#8, 0x66#8, 0x66#8, 0x93#8]

/-- The response that carries the period 604800 (vector P4). -/
def periodResponse : List Byte := [0x00#8, 0x09#8, 0x09#8, 0x3A#8, 0x80#8, 0xA7#8]

/-! ## WellFormed refuses ill-formed terms -/

theorem test_wellFormed_refuses_odd_sizes : ∀ i ∈ [Instr.buildRdrdy 3#8, .buildRddata 33#8, .buildRdser 1#8, .buildRdper 5#8, .parse 3#8],
    i.wellFormed 48 = false := by decide

theorem test_wellFormed_refuses_oversize : ∀ i ∈ [Instr.buildRdrdy 34#8, .buildRddata 34#8, .buildRdser 254#8, .buildRdper 48#8, .parse 34#8],
    i.wellFormed 48 = false := by decide

theorem test_wellFormed_takes_boundary_sizes : ∀ i ∈ [Instr.buildRdrdy 0#8, .buildRddata 32#8, .buildRdser 32#8, .buildRdper 2#8, .parse 32#8],
    i.wellFormed 48 = true := by decide

/-! ## Decoding: words written out as RSV, SIZE, CMD, OPC (R46) -/

theorem test_decode_without_size :
    decode 48 0b0000000000000000_00000000_0000_0001#32 = .ok .crc ∧
    decode 48 0b0000000000000000_00000000_0000_0010#32 = .ok .chk ∧
    decode 48 0b0000000000000000_00000000_0000_0011#32 = .ok .fdec ∧
    decode 48 0b0000000000000000_00000000_0000_0100#32 = .ok .buildStart ∧
    decode 48 0b0000000000000000_00000000_0001_0100#32 = .ok .buildStop ∧
    decode 48 0b0000000000000000_00000000_0010_0100#32 = .ok .buildReset ∧
    decode 48 0b0000000000000000_00000000_0110_0100#32 = .ok .buildClean ∧
    decode 48 0b0000000000000000_00000000_0111_0100#32 = .ok .buildSetper ∧
    decode 48 0b0000000000000000_00000000_0000_0110#32 = .ok .sample := by
  refine ⟨?_, ?_, ?_, ?_, ?_, ?_, ?_, ?_, ?_⟩ <;> rfl

theorem test_decode_with_size :
    decode 48 0b0000000000000000_00000010_0011_0100#32 = .ok (.buildRdrdy 2#8) ∧
    decode 48 0b0000000000000000_00100000_0011_0100#32 = .ok (.buildRdrdy 32#8) ∧
    decode 48 0b0000000000000000_00010000_0100_0100#32 = .ok (.buildRddata 16#8) ∧
    decode 48 0b0000000000000000_00100000_0101_0100#32 = .ok (.buildRdser 32#8) ∧
    decode 48 0b0000000000000000_00000100_1000_0100#32 = .ok (.buildRdper 4#8) ∧
    decode 48 0b0000000000000000_00000000_0000_0101#32 = .ok (.parse 0#8) ∧
    decode 48 0b0000000000000000_00010000_0000_0101#32 = .ok (.parse 16#8) := by
  refine ⟨?_, ?_, ?_, ?_, ?_, ?_, ?_⟩ <;> rfl

/-- The ILLEGAL rows of 95_test_vectors.md, each refused by the check the row names. -/
theorem test_decode_illegal :
    decode 48 0x00000000#32 = .error .opcReserved ∧ decode 48 0x00000007#32 = .error .opcReserved ∧
    decode 48 0x0000000F#32 = .error .opcReserved ∧ decode 48 0x00010001#32 = .error .rsvNotZero ∧
    decode 48 0x00000013#32 = .error .cmdNotZero ∧ decode 48 0x00000104#32 = .error .sizeNotZero ∧
    decode 48 0x00001006#32 = .error .sizeNotZero ∧ decode 48 0x0000014A#32 = .error .opcReserved ∧
    decode 48 0x00000094#32 = .error .cmdReserved ∧ decode 48 0x000000F4#32 = .error .cmdReserved ∧
    decode 48 0x00000334#32 = .error .sizeIllegal ∧ decode 48 0x00002134#32 = .error .sizeIllegal ∧
    decode 48 0x00002234#32 = .error .sizeIllegal ∧ decode 48 0x00000305#32 = .error .sizeIllegal ∧
    decode 48 0x00002205#32 = .error .sizeIllegal ∧ decode 48 0x00000015#32 = .error .cmdNotZero ∧
    decode 48 0x00000174#32 = .error .sizeNotZero := by
  refine ⟨?_, ?_, ?_, ?_, ?_, ?_, ?_, ?_, ?_, ?_, ?_, ?_, ?_, ?_, ?_, ?_, ?_⟩ <;> rfl

theorem test_table_words : decodeTableWord 32 0x74 = some .buildSetper ∧ decodeTableWord 32 0x05 = some (.parse 0#8) ∧
    decodeTableWord 32 0x84 = some (.buildRdper 0#8) ∧ decodeTableWord 32 0x00 = none := by decide

/-! ## One step each: 95_test_vectors.md, L2 -/

theorem test_crc_vectors :
    [0x0000BEEF#32, 0x00000300#32, 0x00000000#32, 0x00003A80#32, 0x00000100#32, 0x00008000#32, 0xFFFF0000#32].map
      (fun v => statusResult (opWrite 0x01 (withArg v))) =
    [some (0#32, 0x92#32), some (0#32, 0xAC#32), some (0#32, 0x81#32), some (0#32, 0xA7#32), some (0#32, 0x75#32), some (0#32, 0xA2#32),
      some (0#32, 0x81#32)] := by decide +kernel

theorem test_chk_vectors :
    [0x00BEEF92#32, 0x00BEEF93#32, 0x00000000#32, 0x00BEEE92#32, 0xFF0300AC#32].map (fun v => statusResult (opWrite 0x02 (withArg v))) =
    [some (0#32, 0x92#32), some (1#32, 0x92#32), some (1#32, 0x81#32), some (1#32, 0xA3#32), some (0#32, 0xAC#32)] := by decide +kernel

theorem test_fdec_below_one :
    [0x80000000#32, 0x007FFFFF#32, 0x3BFFFFFF#32, 0x3C23D70A#32, 0x3C23D70B#32, 0x3DCCCCCD#32, 0x3E800000#32, 0xBF000000#32, 0x3F7FFFFF#32].map
      (fun v => statusResult (opWrite 0x03 (withArg v))) =
    [some (0#32, 0#32), some (0#32, 0#32), some (0#32, 0#32), some (0#32, 0#32), some (0#32, 1#32), some (0#32, 10#32), some (0#32, 25#32),
      some (0#32, 50#32), some (0#32, 99#32)] := by decide +kernel

theorem test_fdec_from_one :
    [0x3F800000#32, 0x3FFFFFFF#32, 0x414570A4#32, 0x42366666#32, 0x449A522B#32, 0x44FFFFFF#32, 0x453B7FFF#32, 0x453B8000#32, 0xC5BB8000#32,
      0x7F7FFFFF#32, 0x7FC00000#32].map (fun v => statusResult (opWrite 0x03 (withArg v))) =
    [some (0#32, 100#32), some (0#32, 199#32), some (0#32, 1234#32), some (0#32, 4559#32), some (0#32, 123456#32), some (0#32, 204799#32),
      some (0#32, 299999#32), some (0#32, 300000#32), some (0#32, 300000#32), some (0#32, 300000#32), some (0#32, 300000#32)] := by decide +kernel

theorem test_build_start : withTwoWords (opWrite 0x04 State.reset) = some (0x00000500#32, 0#32, 0x00100300#32, 0xAC000000#32) := by
  decide +kernel

theorem test_build_stop : withTwoWords (opWrite 0x14 State.reset) = some (0x00000200#32, 0#32, 0x01040000#32, 0#32) := by decide +kernel

/-- The stale bytes of a SETPER frame stay after a STOP. -/
theorem test_build_stop_keeps_stale_bytes :
    withTwoWords (opWrite 0x14 (after (opWrite 0x74 (withArg 604800#32)))) = some (0x00000200#32, 0#32, 0x01040009#32, 0x093A80A7#32) := by
  decide +kernel

theorem test_build_reset : withTwoWords (opWrite 0x24 State.reset) = some (0x00000200#32, 0#32, 0xD3040000#32, 0#32) := by decide +kernel

theorem test_build_clean : withTwoWords (opWrite 0x64 State.reset) = some (0x00000200#32, 0#32, 0x56070000#32, 0#32) := by decide +kernel

theorem test_build_reads :
    [0x234, 0x034, 0x2034, 0x1044, 0x2054, 0x484].map (fun w => withTwoWords (opWrite w State.reset)) =
    [some (0x200#32, 3#32, 0x02020000#32, 0#32), some (0x200#32, 0#32, 0x02020000#32, 0#32), some (0x200#32, 48#32, 0x02020000#32, 0#32),
      some (0x200#32, 24#32, 0x03000000#32, 0#32), some (0x200#32, 48#32, 0xD0330000#32, 0#32), some (0x200#32, 6#32, 0x80040000#32, 0#32)] := by
  decide +kernel

theorem test_setper_frames :
    [604800#32, 604799#32, 0#32, 1#32, 65535#32, 65536#32].map (fun v => withTwoWords (opWrite 0x74 (withArg v))) =
    [some (0x800#32, 0#32, 0x80040009#32, 0x093A80A7#32), some (0x800#32, 0#32, 0x80040009#32, 0x093A7F0B#32),
      some (0x800#32, 0#32, 0x80040000#32, 0x81000081#32), some (0x800#32, 0#32, 0x80040000#32, 0x810001B0#32),
      some (0x800#32, 0#32, 0x80040000#32, 0x81FFFFAC#32), some (0x800#32, 0#32, 0x80040001#32, 0xB0000081#32)] := by decide +kernel

theorem test_setper_rejects :
    [604801#32, 0x00100000#32, 0xFFFFFFFF#32].map (fun v => withTwoWords (opWrite 0x74 (withArg v))) =
    List.replicate 3 (some (2#32, 0#32, 0#32, 0#32)) := by decide +kernel

theorem test_parse_strips :
    withTwoWords (opWrite 0x405 (withBytes periodResponse)) = some (0x00000400#32, 4#32, 0x00093A80#32, 0x80A70000#32) ∧
    statusResult (opWrite 0x1005 (withBytes e7)) = some (0x00001000#32, 16#32) ∧
    hostRead (after (opWrite 0x1005 (withBytes e7))) 0x8C#8 = 0x42366666#32 ∧
    hostRead (after (opWrite 0x1005 (withBytes e7))) 0x90#8 = 0x002B4236#32 ∧
    statusResult (opWrite 0x005 (withBytes e7)) = some (0#32, 0#32) := by decide +kernel

/-- Byte 13 flipped; bytes 2 and 13 both wrong; all zero. -/
theorem test_parse_rejects_first_mismatch :
    statusResult (opWrite 0x1005 (withBytes (e7.set 13 0x5B#8))) = some (0x00000001#32, 4#32) ∧
    statusResult (opWrite 0x1005 (withBytes ((e7.set 13 0x5B#8).set 2 0x35#8))) = some (0x00000001#32, 0#32) ∧
    statusResult (opWrite 0x2005 State.reset) = some (0x00000001#32, 0#32) := by decide +kernel

theorem test_sample_decodes :
    statusResult (opWrite 0x06 (withBytes e7)) = some (0#32, 0#32) ∧
    channels (opWrite 0x06 (withBytes e7)) = some [1234#32, 0#32, 300000#32, 4559#32] := by decide +kernel

/-- Byte 23 flipped; and the data a PARSE 16 left, which SAMPLE then rejects at group 0. -/
theorem test_sample_rejects :
    statusResult (opWrite 0x06 (withBytes (e7.set 23 0x13#8))) = some (0x00000001#32, 7#32) ∧
    channels (opWrite 0x06 (withBytes (e7.set 23 0x13#8))) = some [0#32, 0#32, 0#32, 0#32] ∧
    statusResult (opWrite 0x06 (after (opWrite 0x1005 (withBytes e7)))) = some (0x00000001#32, 0#32) := by decide +kernel

/-- Every ILLEGAL row of 95_test_vectors.md ends with ERR = ILLEGAL, LEN = 0, RESULT = 0. -/
theorem test_illegal_words_end_illegal :
    [0x00, 0x07, 0x0F, 0x10001, 0x13, 0x104, 0x1006, 0x14A, 0x94, 0xF4, 0x334, 0x2134, 0x2234, 0x305, 0x2205, 0x15, 0x174].map
      (fun w => statusResult (opWrite w (withArg 0x1234#32))) = List.replicate 17 (some (3#32, 0#32)) := by decide +kernel

/-- The 16 values of R69, with CRC_INIT 0. -/
theorem test_crc_of_single_bits : (List.range 16).map (fun k => wordCrc 0x00#8 (1#16 <<< k)) =
    [0x31#8, 0x62#8, 0xC4#8, 0xB9#8, 0x43#8, 0x86#8, 0x3D#8, 0x7A#8, 0xF4#8, 0xD9#8, 0x83#8, 0x37#8, 0x6E#8, 0xDC#8, 0x89#8, 0x23#8] := by
  decide +kernel

/-! ## Witnesses of the statements' hypotheses -/

/-- The outcome is a next state. -/
def isNext : Outcome → Bool
  | .next _ => true
  | .fault _ => false
  | .refused _ => false

/-- Such an outcome is `.next` of the state `after` names. -/
theorem next_of_isNext {o : Outcome} (h : isNext o = true) : o = .next (after o) := by
  cases o <;> simp_all [isNext, after]

/-- The operation ends in a next state: by `next_of_isNext`, `exec i s = .next (after (exec i s))`. -/
abbrev Ran (i : Instr) (s : State) : Prop := isNext (exec i s) = true

theorem witness_DecodeOfEncode : Instr.wellFormed 48 (.parse 32#8) = true ∧ Instr.wellFormed 24 (.buildRdper 16#8) = true := by decide

theorem witness_DispatchedWordIsItsEncoding : decode 48 0x00002005#32 = .ok (.parse 32#8) := rfl

theorem witness_IllegalWordsEndIllegal : (withQueue [.write 32 0x00#8 0x00000007#32]).pending = .write 32 0x00#8 0x00000007#32 :: [] ∧
    Illegal (withQueue [.write 32 0x00#8 0x00000007#32]).cfg.bufBytes 0x00000007#32 := ⟨rfl, _, rfl⟩

theorem witness_IllegalWordsEndIllegal_each_cause : ∀ w ∈ [0x00000000#32, 0x00000007#32, 0x00010001#32, 0x00000013#32, 0x00000094#32, 0x00000101#32,
    0x00000104#32, 0x00002134#32, 0x00002205#32], Illegal 48 w := by
  simp only [List.forall_mem_cons]
  exact ⟨⟨_, rfl⟩, ⟨_, rfl⟩, ⟨_, rfl⟩, ⟨_, rfl⟩, ⟨_, rfl⟩, ⟨_, rfl⟩, ⟨_, rfl⟩, ⟨_, rfl⟩, ⟨_, rfl⟩, by simp⟩

theorem witness_SizeMaxBoundsEveryDataSize : 32 % 2 = 0 ∧ 32 + 32 / 2 ≤ 48 ∧
    Instr.parse 33#8 ∈ [Instr.buildRdrdy 33#8, .buildRddata 33#8, .buildRdser 33#8, .buildRdper 33#8, .parse 33#8] ∧ (33#8).toNat % 2 = 1 ∧
    Instr.buildRdrdy 34#8 ∈ [Instr.buildRdrdy 34#8, .buildRddata 34#8, .buildRdser 34#8, .buildRdper 34#8, .parse 34#8] ∧
    sizeMax State.reset.cfg.bufBytes < (34#8).toNat := by decide

theorem witness_StepRunsDecodedOperation :
    (withQueue [.write 32 0x00#8 0x00000006#32]).pending = .write 32 0x00#8 0x00000006#32 :: [] ∧
    decode (withQueue [.write 32 0x00#8 0x00000006#32]).cfg.bufBytes 0x00000006#32 = .ok .sample := ⟨rfl, rfl⟩

/-- The offsets where the clauses of the read statement meet. -/
theorem witness_WindowReadReturnsMappedValue :
    (∀ off ∈ [0x00#8, 0x04#8, 0x08#8, 0x0C#8, 0x10#8, 0x14#8, 0x18#8, 0x1C#8, 0x20#8, 0x7C#8, 0x80#8, 0xAC#8, 0xB0#8, 0xFC#8],
      (withQueue [.read 32 off]).pending = .read 32 off :: [] ∧ off.toNat % 4 = 0) ∧
    (0 < 48 / 4 ∧ (0x80#8).toNat = 0x80 + 4 * 0) ∧ (11 < 48 / 4 ∧ (0xAC#8).toNat = 0x80 + 4 * 11) ∧
    (0x20 ≤ (0x7C#8).toNat ∧ (0x7C#8).toNat < 0x80) ∧ 0x80 + 48 ≤ (0xB0#8).toNat := by decide

/-- The values read at those offsets, after the E7 response has been written to BUF. -/
theorem test_window_reads :
    [0x7C#8, 0x80#8, 0x94#8, 0xAC#8, 0xB0#8].map (fun off => (after (step ((withBytes e7).setPending [.read 32 off]))).lastRead) =
    [some 0#32, some 0x41453470#32, some 0xB2666693#32, some 0#32, some 0#32] := by decide +kernel

theorem witness_HostReadsHaveNoSideEffect : (∀ o ∈ 0x0C#8 :: [0x80#8, 0xFC#8], o.toNat % 4 = 0) ∧
    (withQueue [.read 32 0x0C#8, .read 32 0x80#8, .read 32 0xFC#8, .read 32 0x0C#8]).pending =
      .read 32 0x0C#8 :: ([0x80#8, 0xFC#8].map (BusInput.read 32) ++ .read 32 0x0C#8 :: []) := by decide

theorem witness_BufWordWriteIsBigEndian : (withQueue [.write 32 0xAC#8 0x01020304#32]).buf.wf ∧ 11 < State.reset.cfg.bufBytes / 4 ∧
    (0xAC#8).toNat = 0x80 + 4 * 11 ∧
    (withQueue [.write 32 0xAC#8 0x01020304#32]).pending = .write 32 0xAC#8 0x01020304#32 :: [] := by decide

/-- The bytes a BUF word write stores, in order, at the last word of BUF. -/
theorem test_buf_word_write : (after (step (withQueue [.write 32 0xAC#8 0x01020304#32]))).buf = [(44, 1#8), (45, 2#8), (46, 3#8), (47, 4#8)] := by
  decide +kernel

theorem witness_ArgWriteStoresOnly : (withQueue [.write 32 0x04#8 5#32]).pending = .write 32 0x04#8 5#32 :: [] := rfl

theorem witness_ReservedAndReadOnlyOffsets :
    (∀ off ∈ [0x08#8, 0x1C#8, 0x20#8, 0x7C#8, 0xB0#8, 0xFC#8],
      (withQueue [.write 32 off 5#32]).pending = .write 32 off 5#32 :: [] ∧ off.toNat % 4 = 0 ∧
      (off ∈ [0x08#8, 0x0C#8, 0x10#8, 0x14#8, 0x18#8, 0x1C#8] ∨ 0x20 ≤ off.toNat ∧ off.toNat < 0x80 ∨
        0x80 + State.reset.cfg.bufBytes ≤ off.toNat)) ∧
    (∀ off ∈ [0x20#8, 0x7C#8, 0xB0#8, 0xFC#8], (withQueue [.read 32 off]).pending = .read 32 off :: [] ∧ off.toNat % 4 = 0 ∧
      (0x20 ≤ off.toNat ∧ off.toNat < 0x80 ∨ 0x80 + State.reset.cfg.bufBytes ≤ off.toNat)) := by decide

theorem witness_AccessOutsideInterfaceIsRefused :
    (withQueue [.read 16 0x08#8]).pending = .read 16 0x08#8 :: [] ∧ 16 ≠ 32 ∧
    (withQueue [.write 32 0x02#8 0#32]).pending = .write 32 0x02#8 0#32 :: [] ∧ (0x02#8).toNat % 4 ≠ 0 := by decide

theorem witness_ResetClearsTheBlock : (withQueue [.platformReset]).pending = .platformReset :: [] := rfl

theorem witness_OnlyOperationsChangeResults : step (withQueue [.write 32 0x04#8 5#32]) = .next { State.reset with arg := 5#32 } ∧
    (∀ bits w rest, (withQueue [.write 32 0x04#8 5#32]).pending ≠ .write bits 0x00#8 w :: rest) ∧
    (∀ rest, (withQueue [.write 32 0x04#8 5#32]).pending ≠ .platformReset :: rest) := by
  refine ⟨rfl, ?_, ?_⟩ <;> simp [withQueue, State.setPending]

theorem witness_StepsKeepParametersAndTakeOneInput : step (withQueue [.platformReset]) = .next State.reset := rfl

theorem witness_CrcWritesChecksumOfArg : fieldOpc 0x00010001#32 = 1#4 ∧ 0x00010001#32 ≠ 0x00000001#32 := by decide

theorem witness_ChkValidatesGroupInArg : fieldOpc 0x00000102#32 = 2#4 ∧ 0x00000102#32 ≠ 0x00000002#32 ∧
    crc8 (withArg 0x00BEEF92#32).cfg.crcInit ((withArg 0x00BEEF92#32).arg.extractLsb' 16 8) ((withArg 0x00BEEF92#32).arg.extractLsb' 8 8) =
      (withArg 0x00BEEF92#32).arg.extractLsb' 0 8 ∧
    crc8 (withArg 0x00BEEF93#32).cfg.crcInit ((withArg 0x00BEEF93#32).arg.extractLsb' 16 8) ((withArg 0x00BEEF93#32).arg.extractLsb' 8 8) ≠
      (withArg 0x00BEEF93#32).arg.extractLsb' 0 8 := by decide +kernel

/-- A state of the block: legal parameters and BUF in canonical form, the hypotheses of the BUILD, PARSE and SAMPLE statements. -/
theorem witness_BuildStartLeavesModeGroup : (withBytes e7).cfg.wf ∧ (withBytes e7).buf.wf ∧
    fieldOpc 0x00000104#32 = 4#4 ∧ fieldCmd 0x00000104#32 = 0#4 ∧ 0x00000104#32 ≠ 0x00000004#32 := by decide +kernel

theorem witness_BuildWithoutPayloadLeavesCode : (withBytes e7).cfg.wf ∧ (withBytes e7).buf.wf ∧
    (Instr.buildClean, 0x00000064#32, Config.default.wireCode.clean) ∈
      [(Instr.buildStop, 0x00000014#32, (withBytes e7).cfg.wireCode.stop), (.buildReset, 0x00000024#32, (withBytes e7).cfg.wireCode.reset),
        (.buildClean, 0x00000064#32, (withBytes e7).cfg.wireCode.clean)] := by decide +kernel

theorem witness_BuildReadLeavesCodeAndLength : (withBytes e7).cfg.wf ∧ (withBytes e7).buf.wf ∧
    (∀ size ∈ [0#8, 32#8], (Instr.buildRdper size, 0x84, Config.default.wireCode.rdper) ∈
      [(Instr.buildRdrdy size, 0x34, (withBytes e7).cfg.wireCode.rdrdy), (.buildRddata size, 0x44, (withBytes e7).cfg.wireCode.rddata),
        (.buildRdser size, 0x54, (withBytes e7).cfg.wireCode.rdser), (.buildRdper size, 0x84, (withBytes e7).cfg.wireCode.rdper)]) ∧
    SizeLegal 48 0#8 ∧ SizeLegal 48 32#8 ∧ ¬ SizeLegal 48 33#8 ∧ ¬ SizeLegal 48 34#8 := by unfold SizeLegal; decide +kernel

theorem witness_BuildSetperFramesPeriodOrRejects : (withArg 604800#32).cfg.wf ∧ (withArg 604800#32).buf.wf ∧ (withArg 604800#32).arg.toNat ≤ 604800 ∧
    604800 < (withArg 604801#32).arg.toNat ∧ (withArg 0x00100000#32).arg.extractLsb' 20 12 ≠ 0#12 := by decide

theorem witness_BuiltFramesCarryTheirChecksums :
    Instr.buildSetper ∈ [Instr.buildStart, .buildStop, .buildReset, .buildRdrdy 0#8, .buildRddata 0#8, .buildRdser 0#8, .buildClean, .buildSetper,
      .buildRdper 0#8] ∧ (withArg 604800#32).buf.wf ∧ Ran .buildSetper (withArg 604800#32) ∧
    (after (exec .buildSetper (withArg 604800#32))).errField = 0#4 := by decide +kernel

theorem witness_PeriodRoundTrip : (withArg 604800#32).cfg.wf ∧ (withArg 604800#32).buf.wf ∧ (withBytes periodResponse).buf.wf ∧
    (withArg 604800#32).arg.toNat ≤ 604800 ∧ Ran .buildSetper (withArg 604800#32) ∧ (withBytes periodResponse).cfg = (withArg 604800#32).cfg ∧
    ∀ j < 6, (withBytes periodResponse).buf.readByte j = (after (exec .buildSetper (withArg 604800#32))).buf.readByte (j + 2) := by decide +kernel

/-- A valid response, a first failing group, and legal and illegal sizes. -/
theorem witness_ParseStripsOrRejects : (withBytes e7).buf.wf ∧ SizeLegal 48 16#8 ∧ ¬ SizeLegal 48 34#8 ∧ GroupsValid (withBytes e7) 8 ∧
    GroupsValid (withBytes e7) 0 ∧ FirstInvalid (withBytes (e7.set 13 0x5B#8)) 8 4 ∧ FirstInvalid (withBytes (e7.set 23 0x13#8)) 8 7 ∧
    FirstInvalid State.reset 8 0 := by unfold FirstInvalid GroupsValid GroupValid SizeLegal; decide +kernel

/-- The response that carries 604800, and one that carries 0xFFFFFFFF, above every legal period (crc8(FF FF) = AC, 95_test_vectors.md). -/
theorem witness_PeriodReadBackIsNotChecked :
    ((withBytes periodResponse).buf.wf ∧ 24 ≤ (withBytes periodResponse).cfg.bufBytes ∧ GroupsValid (withBytes periodResponse) 2) ∧
    ((withBytes [0xFF#8, 0xFF#8, 0xAC#8, 0xFF#8, 0xFF#8, 0xAC#8]).buf.wf ∧
      GroupsValid (withBytes [0xFF#8, 0xFF#8, 0xAC#8, 0xFF#8, 0xFF#8, 0xAC#8]) 2) := by
  unfold GroupsValid GroupValid; decide +kernel

theorem witness_SingleBitCorruptionIsRejected : (withBytes (e7.set 13 0x5B#8)).cfg = (withBytes e7).cfg ∧
    (withBytes (e7.set 13 0x5B#8)).buf.readByte 13 = (withBytes e7).buf.readByte 13 ^^^ (1#8 <<< 0) ∧
    (∀ a, a ≠ 13 → (withBytes (e7.set 13 0x5B#8)).buf.readByte a = (withBytes e7).buf.readByte a) ∧
    SizeLegal 48 16#8 ∧ GroupsValid (withBytes e7) 8 ∧ 13 < 24 ∧ (withBytes e7).cfg.wf := by
  refine ⟨by decide, by decide +kernel, ?_, by unfold SizeLegal; decide, by unfold GroupsValid GroupValid; decide +kernel, by decide, by decide⟩
  intro a ha
  by_cases h : a < 24
  · revert ha a
    exact fun a h13 h => (show ∀ a < 24, a ≠ 13 → (withBytes (e7.set 13 0x5B#8)).buf.readByte a = (withBytes e7).buf.readByte a by
      decide +kernel) a h h13
  · have key : ∀ bytes : List Byte, bytes.length = 24 → (withBytes bytes).buf.readByte a = 0#8 := by
      intro bytes hl
      show (Memory.writeBytes [] 0 bytes).readByte a = 0#8
      rw [Memory.readByte_writeBytes_outside Memory.wf_nil _ _ _ (by omega)]
      rfl
    rw [key _ (by decide), key _ (by decide)]

theorem witness_FdecWritesDecodedArg : fieldOpc 0x00000103#32 = 3#4 ∧ 0x00000103#32 ≠ 0x00000003#32 := by decide

/-- One word for each exponent clause: 0.0, 0.75, 0.25, the smallest subnormal. -/
theorem witness_FdecOfZeroAndSubUnit : (bexp 0x80000000#32 = 0 ∧ mant 0x80000000#32 = 0) ∧
    (∀ p ∈ [(0x3F400000#32, 126), (0x3E800000#32, 125), (0x3E000000#32, 124), (0x3DCCCCCD#32, 123), (0x3D000000#32, 122), (0x3C800000#32, 121),
      (0x3C23D70A#32, 120), (0x3BFFFFFF#32, 119), (0x00000001#32, 0)],
      bexp p.1 = p.2 ∧ bexp p.1 < 127 ∧ ¬(bexp p.1 = 0 ∧ mant p.1 = 0)) := by decide +kernel

theorem witness_FdecClampsFromThreeThousand : 139 ≤ bexp 0xC5BB8000#32 ∧
    (127 ≤ bexp 0x453B8000#32 ∧ bexp 0x453B8000#32 ≤ 138 ∧ 3000 ≤ 2 ^ (bexp 0x453B8000#32 - 127) + mant 0x453B8000#32 / 2 ^ (150 - bexp 0x453B8000#32)) ∧
    (127 ≤ bexp 0x3F800000#32 ∧ bexp 0x3F800000#32 ≤ 137) ∧ (127 ≤ bexp 0x44FFFFFF#32 ∧ bexp 0x44FFFFFF#32 ≤ 137) ∧ bexp 0x453B7FFF#32 = 138 := by decide +kernel

theorem witness_FdecTruncatesTheFraction :
    (127 ≤ bexp 0x3F800000#32 ∧ bexp 0x3F800000#32 ≤ 138 ∧ 2 ^ (bexp 0x3F800000#32 - 127) + mant 0x3F800000#32 / 2 ^ (150 - bexp 0x3F800000#32) < 3000) ∧
    (127 ≤ bexp 0x453B7FFF#32 ∧ bexp 0x453B7FFF#32 ≤ 138 ∧ 2 ^ (bexp 0x453B7FFF#32 - 127) + mant 0x453B7FFF#32 / 2 ^ (150 - bexp 0x453B7FFF#32) < 3000) := by
  decide +kernel

theorem witness_FdecClosedForm : bexp 0x7F7FFFFF#32 < 255 ∧ bexp 0x7FC00000#32 = 255 := by decide

theorem witness_FdecRangeAndOrder : magnitude 0xC1200000#32 ≤ magnitude 0x41400000#32 ∧ fdec 0x453B7FFF#32 < 300000 ∧
    magnitude 0x3C23D70A#32 < 0x3C23D70B := by decide +kernel

theorem witness_SampleDecodesOrRejects : (withBytes e7).cfg.wf ∧ GroupsValid (withBytes e7) 8 ∧ FirstInvalid State.reset 8 0 ∧
    fieldOpc 0x00001006#32 = 6#4 ∧ 0x00001006#32 ≠ 0x00000006#32 := by
  unfold FirstInvalid GroupsValid GroupValid; decide +kernel

theorem witness_SampleCanBeRepeated : Ran .sample (withBytes e7) := by decide +kernel

theorem witness_SampleAgreesWithParseAndFdec : (withBytes e7).cfg.wf ∧ (withBytes e7).buf.wf ∧ Ran .sample (withBytes e7) ∧
    (after (exec .sample (withBytes e7))).errField = 0#4 ∧ 3 < 4 ∧ (0x8C#8).toNat = 0x80 + 4 * 3 := by decide +kernel

theorem witness_OperationsLeaveArgAndOpAlone : Ran (.parse 16#8) (withBytes e7) := by decide +kernel

theorem witness_OnlySuccessfulSampleWritesChannels : Ran .sample (withBytes e7) ∧ (after (exec .sample (withBytes e7))).errField = 0#4 ∧
    Ran .sample State.reset ∧ (after (exec .sample State.reset)).errField ≠ 0#4 := by decide +kernel

theorem witness_OperationsWriteOnlyBufBelowLen : (withBytes e7).buf.wf ∧ Ran (.parse 16#8) (withBytes e7) := by decide +kernel

/-- BUF with one byte more, which neither PARSE 16 nor SAMPLE reads. -/
theorem witness_OperationsReadOnlyTheirBytes : (withBytes e7).buf.wf ∧ (withBytes (e7 ++ [0x55#8])).buf.wf ∧ Ran (.parse 16#8) (withBytes e7) ∧
    Ran .sample (withBytes e7) ∧
    ∀ a < 24, (withBytes (e7 ++ [0x55#8])).buf.readByte a = (withBytes e7).buf.readByte a := by decide +kernel

theorem witness_OutcomeDependsOnlyOnArgAndBuf : (withBytes e7).buf.wf ∧ (after (exec .sample (withBytes e7))).buf.wf ∧
    (after (exec .sample (withBytes e7))).cfg = (withBytes e7).cfg ∧ (after (exec .sample (withBytes e7))).arg = (withBytes e7).arg ∧
    (after (exec .sample (withBytes e7))).buf = (withBytes e7).buf ∧ Ran .sample (withBytes e7) := by decide +kernel

theorem witness_UnreadArgBitsAreIgnored : Ran .crc (withArg 0x0000BEEF#32) ∧
    (0xFFFFBEEF#32).extractLsb' 0 16 = (withArg 0x0000BEEF#32).arg.extractLsb' 0 16 ∧ Instr.crc ≠ .fdec ∧ Instr.crc ≠ .buildSetper := by decide +kernel

theorem witness_ErrorsWriteOnlyStatusAndResult :
    ((withArg 604801#32).withFetchWord 32 0x74).pending = .write 32 0x00#8 0x00000074#32 :: [] ∧
    isNext (opWrite 0x74 (withArg 604801#32)) = true ∧ (after (opWrite 0x74 (withArg 604801#32))).errField ≠ 0#4 := by decide +kernel

/-- One write to OP for each error: an illegal word, SETPER, CHK, PARSE, SAMPLE. -/
theorem witness_ErrorsHaveTheirCauses :
    (∀ w ∈ [0x305, 0x74, 0x02, 0x205, 0x06],
      ((withArg 604801#32).withFetchWord 32 w).pending = .write 32 0x00#8 (BitVec.ofNat 32 w) :: []) ∧
    [0x305, 0x74, 0x02, 0x205, 0x06].map (fun w => isNext (opWrite w (withArg 604801#32))) = List.replicate 5 true ∧
    [0x305, 0x74, 0x02, 0x205, 0x06].map (fun w => (after (opWrite w (withArg 604801#32))).errField) = [3#4, 2#4, 1#4, 1#4, 1#4] := by
  decide +kernel

theorem witness_LenFollowsTheOperation : (withBytes e7).cfg.wf ∧ Ran (.parse 16#8) (withBytes e7) ∧
    (after (exec (.parse 16#8) (withBytes e7))).errField = 0#4 ∧ Ran .sample State.reset ∧ (after (exec .sample State.reset)).errField ≠ 0#4 := by decide +kernel

theorem witness_StepKeepsInvariant : ((withBytes e7).withFetchWord 32 0x06).Inv ∧
    isNext (opWrite 0x06 (withBytes e7)) = true := by decide +kernel

theorem witness_NoInputReachesBeyondBuf : State.reset.cfg.wf := by decide

theorem witness_EveryInterfaceSequenceCompletes :
    (withQueue [.write 32 0x04#8 604800#32, .write 32 0x00#8 0x74#32, .read 32 0x0C#8, .platformReset]).Inv ∧
    ∀ a ∈ (withQueue [.write 32 0x04#8 604800#32, .write 32 0x00#8 0x74#32, .read 32 0x0C#8, .platformReset]).pending, a.inInterface = true := by
  decide +kernel

end Sys2Proof.Tests
end

section
/-! What the end of an operation leaves, in the vocabulary of the statements, and what one input can do to the state. -/

namespace Sys2Proof.Machine

open Sys2Proof.Spec

/-- `finish` leaves the outcome it is given, as the host reads it (spec 10_state.md R19). -/
theorem ends_finish (s : State) (e : ErrCode) (len : BitVec 8) (res : Word) :
    Ends (s.finish e len res) e.code.toNat len.toNat res.toNat := ⟨statusWord_toNat e len, rfl⟩

theorem sameBuf_finish (s : State) (e : ErrCode) (len : BitVec 8) (res : Word) : SameBuf s (s.finish e len res) :=
  fun _ => rfl

theorem sameChannels_finish (s : State) (e : ErrCode) (len : BitVec 8) (res : Word) : SameChannels s (s.finish e len res) :=
  ⟨rfl, rfl, rfl, rfl⟩

theorem untouched_finish (s : State) (e : ErrCode) (len : BitVec 8) (res : Word) : Untouched s (s.finish e len res) :=
  ⟨rfl, rfl, rfl, rfl, rfl⟩

/-- What a write to OP can answer with a next state: the decoded operation's, or ILLEGAL (spec 30_encoding.md R51). -/
theorem startOperation_next {w : Word} {s t : State} (h : startOperation w s = .next t) :
    (∃ i, decode s.cfg.bufBytes w = .ok i ∧ exec i (s.setOp w) = .next t) ∨
      (∃ e, decode s.cfg.bufBytes w = .error e) ∧ t = (s.setOp w).finish .illegal 0#8 0#32 := by
  cases hd : decode s.cfg.bufBytes w with
  | ok i => exact .inl ⟨i, rfl, startOperation_of_ok hd ▸ h⟩
  | error e =>
    rw [startOperation_of_error hd] at h
    exact .inr ⟨⟨e, rfl⟩, (Host.Outcome.next.inj h).symm⟩

/-- What a host write can answer with a next state, by the register its offset names (spec 20_memory.md R30, R31, R34, R35). -/
theorem hostWrite_next {off : Offset} {v : Word} {s t : State} (h : hostWrite off v s = .next t) :
    (windowMap s.cfg.bufBytes off = .op ∧ startOperation v s = .next t) ∨
    (windowMap s.cfg.bufBytes off = .arg ∧ t = s.setArg v) ∨
    (∃ a, windowMap s.cfg.bufBytes off = .bufWord a ∧ a + 4 ≤ s.cfg.bufBytes ∧
      t = s.setBuf (s.buf.writeBytes a (wordBytes v))) ∨
    t = s := by
  cases hw : windowMap s.cfg.bufBytes off <;> simp only [hostWrite, hw] at h
  case op => exact .inl ⟨rfl, h⟩
  case arg => exact .inr (.inl ⟨rfl, (Host.Outcome.next.inj h).symm⟩)
  case bufWord a => exact .inr (.inr (.inl ⟨a, rfl, guardBuf_next h⟩))
  all_goals exact .inr (.inr (.inr (Host.Outcome.next.inj h).symm))

/-- What one step can answer with a next state, by the oldest input (spec 00_scope.md R5, 20_memory.md R33, R34, 70_reset_and_hazards.md R113). -/
theorem step_next_cases {s t : State} (h : step s = .next t) :
    (∃ off rest, s.pending = .read 32 off :: rest ∧ off.toNat % 4 = 0 ∧
      t = (s.setPending rest).setLastRead (hostRead (s.setPending rest) off)) ∨
    (∃ off v rest, s.pending = .write 32 off v :: rest ∧ off.toNat % 4 = 0 ∧ hostWrite off v (s.setPending rest) = .next t) ∨
    (∃ rest, s.pending = .platformReset :: rest ∧ t = platformReset (s.setPending rest)) := by
  match hp : s.pending with
  | [] =>
    rw [step_of_idle hp] at h
    exact absurd h nofun
  | .read bits off :: rest =>
    obtain ⟨rfl, halign, h⟩ := withAccess_next (step_of_read hp ▸ h)
    exact .inl ⟨off, rest, rfl, halign, (Host.Outcome.next.inj h).symm⟩
  | .write bits off v :: rest =>
    obtain ⟨rfl, halign, h⟩ := withAccess_next (step_of_write hp ▸ h)
    exact .inr (.inl ⟨off, v, rest, rfl, halign, h⟩)
  | .platformReset :: rest =>
    rw [step_of_reset hp] at h
    exact .inr (.inr ⟨rest, rfl, (Host.Outcome.next.inj h).symm⟩)

end Sys2Proof.Machine
end

section
/-! The invariant, update by update: what `finish`, a write of BUF, a SAMPLE and a reset need in order to keep it. -/

namespace Sys2Proof.Machine

/-- Below 1.0 the result is less than 200, before the last shift already (spec 43_float_decoder.md R91). -/
theorem fdecBelowOne_lt {m : Nat} (k : Nat) (hm : m < 2 ^ mantissaBits) : fdecBelowOne m k < 200 := by
  have hinner : ((2 ^ mantissaBits + m) * 100) >>> mantissaBits < 200 := by
    rw [Nat.shiftRight_eq_div_pow]
    exact Nat.div_lt_of_lt_mul (by omega)
  exact Nat.lt_of_le_of_lt (Nat.shiftRight_le _ k) hinner

/-- From 1.0 up the clamp bounds the integer part, and the fraction is below 100 (spec 43_float_decoder.md R92, R93). -/
theorem fdecFromOne_le (m k : Nat) : fdecFromOne m k ≤ outMax := by
  have hfrac : ∀ sh, ((m % 2 ^ sh) * 100) >>> sh < 100 := fun sh => by
    have hmod : m % 2 ^ sh < 2 ^ sh := Nat.mod_lt _ (Nat.two_pow_pos sh)
    rw [Nat.shiftRight_eq_div_pow]
    exact Nat.div_lt_of_lt_mul (Nat.mul_lt_mul_of_pos_right hmod (by decide))
  have hlast := hfrac (mantissaBits - k)
  have hmax : outMax = pmMax * 100 := rfl
  dsimp only [fdecFromOne]
  split <;> omega

/-- A decoded value is at most OUT_MAX (spec 43_float_decoder.md R94). -/
theorem fdec_le_outMax (w : Word) : fdec w ≤ outMax := by
  unfold fdec
  split
  · exact Nat.zero_le _
  split
  · have := fdecBelowOne_lt (-expOf w).toNat (w.extractLsb' 0 23).isLt
    exact Nat.le_trans (Nat.le_of_lt this) (by decide)
  split
  · exact Nat.le_refl _
  · exact fdecFromOne_le _ _

theorem channelInRange_fdecWord (w : Word) : channelInRange (fdecWord w) := by
  rw [channelInRange, fdecWord, BitVec.toNat_ofNat]
  exact Nat.le_trans (Nat.mod_le _ _) (fdec_le_outMax w)

/-- An operation may end with any outcome and any LEN within BUF (spec 10_state.md R19 to R21). -/
theorem State.Inv.finish {s : State} (h : s.Inv) (e : ErrCode) {len : BitVec 8} (hlen : len.toNat ≤ s.cfg.bufBytes) (res : Word) :
    (s.finish e len res).Inv := by
  obtain ⟨hcfg, hwf, hbelow, -, -, hch⟩ := h
  refine ⟨hcfg, hwf, hbelow, statusLegal_statusWord e len, ?_, hch⟩
  rwa [State.finish_status, lenOf_statusWord]

/-- An operation may end with LEN = 0, as every error does (spec 60_exceptions.md R101). -/
theorem State.Inv.finish_zero {s : State} (h : s.Inv) (e : ErrCode) (res : Word) : (s.finish e 0#8 res).Inv :=
  h.finish e (Nat.zero_le _) res

/-- A write of bytes of BUF keeps the invariant (spec 10_state.md R23). -/
theorem State.Inv.writeBytes {s : State} (h : s.Inv) {a : Nat} {bytes : List Byte} (hfit : a + bytes.length ≤ s.cfg.bufBytes) :
    (s.setBuf (s.buf.writeBytes a bytes)).Inv := by
  obtain ⟨hcfg, hwf, hbelow, hrest⟩ := h
  exact ⟨hcfg, Memory.writeBytes_wf hwf a bytes, Memory.writeBytes_below hbelow bytes hfit, hrest⟩

/-- Decoded floats may be written to the channels (spec 10_state.md R22). -/
theorem State.Inv.setChannels_fdecWord {s : State} (h : s.Inv) (w0 w1 w2 w3 : Word) :
    (s.setChannels (fdecWord w0) (fdecWord w1) (fdecWord w2) (fdecWord w3)).Inv := by
  obtain ⟨hcfg, hwf, hbelow, hstatus, hlen, -⟩ := h
  exact ⟨hcfg, hwf, hbelow, hstatus, hlen, channelInRange_fdecWord w0, channelInRange_fdecWord w1, channelInRange_fdecWord w2,
    channelInRange_fdecWord w3⟩

/-- The platform's reset leaves the invariant, on any block with legal parameters (spec 70_reset_and_hazards.md R113). -/
theorem inv_platformReset {s : State} (h : s.cfg.wf) : (platformReset s).Inv := by
  have hstatus : statusLegal 0#32 = true := by decide
  have hlen : (lenOf 0#32).toNat = 0 := by decide
  have hch : channelInRange 0#32 := Nat.zero_le _
  exact ⟨h, Memory.wf_nil, nofun, hstatus, hlen.trans_le (Nat.zero_le _), hch, hch, hch, hch⟩

/-- Every operation keeps the invariant. -/
theorem exec_keeps_inv {i : Instr} {s t : State} (hinv : s.Inv) (h : exec i s = .next t) : t.Inv := by
  rcases exec_next_cases h with ⟨e, res, rfl⟩ | ⟨bytes, res, hfit, hbyte, rfl⟩ | ⟨-, rfl⟩
  · exact hinv.finish_zero e res
  · have hlen : (BitVec.ofNat 8 bytes.length).toNat ≤ s.cfg.bufBytes := by
      rwa [BitVec.toNat_ofNat, Nat.mod_eq_of_lt hbyte]
    exact (hinv.writeBytes (by omega)).finish .ok hlen res
  · exact (hinv.setChannels_fdecWord _ _ _ _).finish_zero .ok 0#32

/-- Every write to OP keeps the invariant. -/
theorem startOperation_keeps_inv {w : Word} {s t : State} (hinv : s.Inv) (h : startOperation w s = .next t) : t.Inv := by
  have hop : (s.setOp w).Inv := hinv
  rcases startOperation_next h with ⟨i, -, h⟩ | ⟨-, rfl⟩
  · exact exec_keeps_inv hop h
  · exact hop.finish_zero .illegal 0#32

/-- Every host write keeps the invariant. -/
theorem hostWrite_keeps_inv {off : Offset} {v : Word} {s t : State} (hinv : s.Inv) (h : hostWrite off v s = .next t) : t.Inv := by
  rcases hostWrite_next h with ⟨-, h⟩ | ⟨-, rfl⟩ | ⟨a, -, hfit, rfl⟩ | rfl
  · exact startOperation_keeps_inv hinv h
  · exact hinv
  · exact hinv.writeBytes hfit
  · exact hinv

/-- Settles O48, by the oldest input: a read and a write of ARG touch nothing the invariant speaks of, a write of a BUF word stays
within BUF, an operation keeps it (`exec_keeps_inv`), a reset leaves it. -/
theorem stepKeepsInvariant : Obligations.StepKeepsInvariant := by
  unfold Obligations.StepKeepsInvariant
  intro s t hinv h
  rcases step_next_cases h with ⟨off, rest, -, -, rfl⟩ | ⟨off, v, rest, -, -, h⟩ | ⟨rest, -, rfl⟩
  · exact hinv
  · exact hostWrite_keeps_inv (s := s.setPending rest) hinv h
  · exact inv_platformReset hinv.1

end Sys2Proof.Machine
end

section
/-! SIZE_MAX and the operations that carry a data size. -/

namespace Sys2Proof.Machine

open Sys2Proof.Spec

theorem sizeMax_even (bufBytes : Nat) : sizeMax bufBytes % 2 = 0 := Nat.mul_mod_right 2 _

/-- The wire bytes of SIZE_MAX data bytes fit (spec 00_scope.md R11). -/
theorem sizeMax_fits (bufBytes : Nat) : sizeMax bufBytes + sizeMax bufBytes / 2 ≤ bufBytes := by
  unfold sizeMax
  omega

/-- SIZE_MAX is the largest such size (spec 00_scope.md R11). -/
theorem le_sizeMax {bufBytes n : Nat} (heven : n % 2 = 0) (hfits : n + n / 2 ≤ bufBytes) : n ≤ sizeMax bufBytes := by
  unfold sizeMax
  omega

/-- The size check refuses an odd size and one above SIZE_MAX (spec 30_encoding.md R49). -/
theorem legalSize_eq_false {bufBytes : Nat} {size : BitVec 8} (h : size.toNat % 2 = 1 ∨ sizeMax bufBytes < size.toNat) :
    legalSize bufBytes size = false := by
  rw [Bool.eq_false_iff]
  intro hlegal
  obtain ⟨heven, hfits⟩ := legalSize_iff.mp hlegal
  have hle := le_sizeMax heven hfits
  omega

/-- The operations that carry a data size (spec 30_encoding.md R49). -/
abbrev sizedInstrs (size : BitVec 8) : List Instr :=
  [.buildRdrdy size, .buildRddata size, .buildRdser size, .buildRdper size, .parse size]

/-- An operation that carries a data size is well formed exactly when the decoder takes the size. -/
theorem wellFormed_of_mem_sizedInstrs {bufBytes : Nat} {size : BitVec 8} {i : Instr} (hi : i ∈ sizedInstrs size) :
    i.wellFormed bufBytes = legalSize bufBytes size := by
  simp only [List.mem_cons, List.not_mem_nil, or_false] at hi
  rcases hi with rfl | rfl | rfl | rfl | rfl <;> rfl

/-- An operation that carries a data size the block does not take ends ILLEGAL, whatever else it would have done. -/
theorem exec_of_illegal_size {s : State} {size : BitVec 8} {i : Instr} (hi : i ∈ sizedInstrs size)
    (h : legalSize s.cfg.bufBytes size = false) : exec i s = .next (s.finish .illegal 0#8 0#32) := by
  simp only [List.mem_cons, List.not_mem_nil, or_false] at hi
  rcases hi with rfl | rfl | rfl | rfl | rfl <;> exact withLegalSize_of_illegal h

/-- Settles O4: the bounds are arithmetic on 2 * (BUF_BYTES / 3), and the size check of the five operations refuses the rest. -/
theorem sizeMaxBoundsEveryDataSize : Obligations.SizeMaxBoundsEveryDataSize := by
  unfold Obligations.SizeMaxBoundsEveryDataSize
  refine ⟨fun bufBytes => ⟨⟨sizeMax_even bufBytes, sizeMax_fits bufBytes⟩, fun n => le_sizeMax⟩, rfl, ?_⟩
  intro s size i hi hsize
  have hillegal := legalSize_eq_false hsize
  exact ⟨(wellFormed_of_mem_sizedInstrs hi).trans hillegal, _, exec_of_illegal_size hi hillegal,
    ends_finish s .illegal 0#8 0#32, sameBuf_finish _ _ _ _, sameChannels_finish _ _ _ _, untouched_finish _ _ _ _⟩

end Sys2Proof.Machine
end

section
/-! The checksum as long division over GF(2): one turn of the loop of R65 is one step of the division. -/

namespace Sys2Proof.Machine

open Sys2Proof.Spec

/-- Numbers whose bits do not overlap: their sum is their GF(2) sum. -/
theorem shiftLeft_add_eq_xor_of_lt {n b : Nat} (hb : b < 2 ^ n) (a : Nat) : a <<< n + b = a <<< n ^^^ b := by
  rw [Nat.shiftLeft_add_eq_or_of_lt hb]
  refine Nat.eq_of_testBit_eq fun j => ?_
  rw [Nat.testBit_or, Nat.testBit_xor, Nat.testBit_shiftLeft]
  by_cases hj : n ≤ j
  · have hbj : b.testBit j = false := Nat.testBit_lt_two_pow (Nat.lt_of_lt_of_le hb (Nat.pow_le_pow_right (by decide) hj))
    rw [hbj, Bool.or_false, Bool.xor_false]
  · rw [decide_eq_false hj, Bool.false_and, Bool.false_or, Bool.false_xor]

/-- One turn of the loop on numbers: a shift, and the 9-bit divisor subtracted when the top bit leaves the byte. -/
theorem crcStep_toNat (c : Byte) :
    (crcStep c).toNat = if c.toNat.testBit 7 then (c.toNat <<< 1) ^^^ 0x131 else c.toNat <<< 1 := by
  revert c
  decide

/-- One step of the division is one turn of the loop on the top byte; the lower bits `r` wait unchanged. -/
theorem gf2Reduce_succ (n : Nat) (c : Byte) {r : Nat} (hr : r < 2 ^ (n + 8)) :
    gf2Reduce (n + 1) (c.toNat <<< (n + 1) ^^^ r) = gf2Reduce n ((crcStep c).toNat <<< n ^^^ r) := by
  have htop : (c.toNat <<< (n + 1) ^^^ r).testBit (n + 8) = c.toNat.testBit 7 := by
    rw [Nat.testBit_xor, Nat.testBit_shiftLeft, Nat.testBit_lt_two_pow hr, Bool.xor_false,
      show n + 8 - (n + 1) = 7 by omega, decide_eq_true (by omega), Bool.true_and]
  have hshift : c.toNat <<< (n + 1) = (c.toNat <<< 1) <<< n := by
    rw [← Nat.shiftLeft_add, Nat.add_comm]
  rw [gf2Reduce, htop, crcStep_toNat, hshift]
  split
  · rw [Nat.shiftLeft_xor_distrib, Nat.xor_right_comm]
  · rfl

/-- `k` steps of the division are `k` turns of the loop. -/
theorem gf2Reduce_add (n k : Nat) (c : Byte) {r : Nat} (hr : r < 2 ^ (n + 8)) :
    gf2Reduce (n + k) (c.toNat <<< (n + k) ^^^ r) = gf2Reduce n ((crcSteps k c).toNat <<< n ^^^ r) := by
  induction k generalizing c with
  | zero => rfl
  | succ k ih =>
    have hrk : r < 2 ^ (n + k + 8) := Nat.lt_of_lt_of_le hr (Nat.pow_le_pow_right (by decide) (by omega))
    calc gf2Reduce (n + k + 1) (c.toNat <<< (n + k + 1) ^^^ r)
        = gf2Reduce (n + k) ((crcStep c).toNat <<< (n + k) ^^^ r) := gf2Reduce_succ (n + k) c hrk
      _ = gf2Reduce n ((crcSteps k (crcStep c)).toNat <<< n ^^^ r) := ih (crcStep c)

/-- Settles O18: the division takes the first byte in eight steps, meets the second byte there, and takes the sum in eight more. -/
theorem crcIsPolynomialRemainder : Obligations.CrcIsPolynomialRemainder := by
  unfold Obligations.CrcIsPolynomialRemainder
  intro crcInit b0 b1
  have hb1 : b1.toNat <<< 8 < 2 ^ (8 + 8) := by
    have := b1.isLt
    rw [Nat.shiftLeft_eq]
    omega
  have hword : ((crcInit ^^^ b0).toNat * 256 + b1.toNat) * 256 = (crcInit ^^^ b0).toNat <<< (8 + 8) ^^^ b1.toNat <<< 8 := by
    rw [← shiftLeft_add_eq_xor_of_lt hb1, Nat.shiftLeft_eq, Nat.shiftLeft_eq]
    omega
  symm
  calc gf2Reduce 16 (((crcInit ^^^ b0).toNat * 256 + b1.toNat) * 256)
      = gf2Reduce (8 + 8) ((crcInit ^^^ b0).toNat <<< (8 + 8) ^^^ b1.toNat <<< 8) := by rw [hword]
    _ = gf2Reduce 8 ((crcByte crcInit b0).toNat <<< 8 ^^^ b1.toNat <<< 8) := gf2Reduce_add 8 8 _ hb1
    _ = gf2Reduce (0 + 8) ((crcByte crcInit b0 ^^^ b1).toNat <<< (0 + 8) ^^^ 0) := by
        rw [BitVec.toNat_xor, ← Nat.shiftLeft_xor_distrib, Nat.xor_zero, Nat.zero_add]
    _ = gf2Reduce 0 ((crc8 crcInit b0 b1).toNat <<< 0 ^^^ 0) := gf2Reduce_add 0 8 _ (by decide)
    _ = (crc8 crcInit b0 b1).toNat := by rw [gf2Reduce, Nat.xor_zero, Nat.shiftLeft_zero]

end Sys2Proof.Machine
end

section
/-! Who writes what: the host's accesses leave the results alone, an operation leaves the host's side alone, only a SAMPLE that ends OK
writes the channels, and LEN follows the operation. -/

namespace Sys2Proof.Machine

open Sys2Proof.Spec

/-- A host write to another offset than OP starts no operation, so it leaves every result (spec 20_memory.md R34). -/
theorem hostWrite_sameResults {off : Offset} {v : Word} {s t : State} (hoff : off ≠ 0x00#8) (h : hostWrite off v s = .next t) :
    SameResults s t := by
  rcases hostWrite_next h with ⟨hop, -⟩ | ⟨-, rfl⟩ | ⟨a, -, -, rfl⟩ | rfl
  · exact absurd (windowMap_eq_op hop) hoff
  all_goals exact ⟨rfl, rfl, rfl, rfl, rfl, rfl, rfl⟩

/-- Settles O14, by the oldest input: a read sets what was read last, a write that is not to OP starts no operation
(`hostWrite_sameResults`), and the third kind, a reset, is excluded. -/
theorem onlyOperationsChangeResults : Obligations.OnlyOperationsChangeResults := by
  unfold Obligations.OnlyOperationsChangeResults
  intro s t h hnotOp hnotReset
  rcases step_next_cases h with ⟨off, rest, -, -, rfl⟩ | ⟨off, v, rest, hp, -, h⟩ | ⟨rest, hp, -⟩
  · exact ⟨rfl, rfl, rfl, rfl, rfl, rfl, rfl⟩
  · have hoff : off ≠ 0x00#8 := by
      rintro rfl
      exact hnotOp _ _ _ hp
    exact hostWrite_sameResults (s := s.setPending rest) hoff h
  · exact absurd hp (hnotReset rest)

/-- Settles O38: each of the three ends of an operation updates BUF, the channels, STATUS and RESULT at most. -/
theorem operationsLeaveArgAndOpAlone : Obligations.OperationsLeaveArgAndOpAlone := by
  unfold Obligations.OperationsLeaveArgAndOpAlone
  intro i s t h
  rcases exec_next_cases h with ⟨e, res, rfl⟩ | ⟨bytes, res, -, -, rfl⟩ | ⟨-, rfl⟩
  all_goals exact ⟨rfl, rfl, rfl, rfl, rfl⟩

/-- `ok` alone has the code 0 (spec 10_state.md R20). -/
theorem ErrCode.code_eq_zero {e : ErrCode} : e.code = 0#4 ↔ e = .ok := by
  cases e <;> decide

/-- `finish` with an error is not the end of an operation that ended OK. -/
theorem errField_finish_ne_zero {s : State} {e : ErrCode} {len : BitVec 8} {res : Word} (he : e ≠ .ok) :
    (s.finish e len res).errField ≠ 0#4 := by
  rwa [State.errField_finish, ne_eq, ErrCode.code_eq_zero]

/-- What SAMPLE leaves when it ends OK (spec 43_float_decoder.md R98). -/
theorem sample_next_of_ok {s t : State} (h : exec .sample s = .next t) (hok : t.errField = 0#4) :
    t = (s.setChannels (fdecWord (channelBits s.buf 0)) (fdecWord (channelBits s.buf 1)) (fdecWord (channelBits s.buf 2))
      (fdecWord (channelBits s.buf 3))).finish .ok 0#8 0#32 := by
  obtain ⟨-, rfl⟩ := sample_next h
  rcases sampleState_cases s with ⟨g, -, he⟩ | ⟨-, he⟩
  · rw [he] at hok
    exact absurd hok (errField_finish_ne_zero nofun)
  · exact he

/-- An operation that is no SAMPLE, or that ends with an error, leaves the channels (spec 10_state.md R22). -/
theorem exec_sameChannels {i : Instr} {s t : State} (h : exec i s = .next t) (hi : i ≠ .sample ∨ t.errField ≠ 0#4) :
    SameChannels s t := by
  rcases exec_next_cases h with ⟨e, res, rfl⟩ | ⟨bytes, res, -, -, rfl⟩ | ⟨hsample, rfl⟩
  · exact sameChannels_finish s e 0#8 res
  · exact ⟨rfl, rfl, rfl, rfl⟩
  · rcases hi with hi | herr
    · exact absurd hsample hi
    · exact absurd (State.errField_finish _ .ok _ _) herr

/-- Settles O39: `exec_sameChannels`, and a SAMPLE that ends OK leaves decoded floats, each in range. -/
theorem onlySuccessfulSampleWritesChannels : Obligations.OnlySuccessfulSampleWritesChannels := by
  unfold Obligations.OnlySuccessfulSampleWritesChannels
  intro i s t h
  refine ⟨exec_sameChannels h, ?_⟩
  rintro rfl hok
  rw [sample_next_of_ok h hok]
  exact ⟨channelInRange_fdecWord _, channelInRange_fdecWord _, channelInRange_fdecWord _, channelInRange_fdecWord _⟩

/-- STATUS after an operation: an outcome, and a LEN within BUF that is 0 on an error (spec 10_state.md R19, R21). -/
theorem exec_next_status {i : Instr} {s t : State} (h : exec i s = .next t) :
    ∃ e len, t.status = statusWord e len ∧ len.toNat ≤ s.cfg.bufBytes ∧ (e ≠ .ok → len = 0#8) := by
  rcases exec_next_cases h with ⟨e, res, rfl⟩ | ⟨bytes, res, hfit, hbyte, rfl⟩ | ⟨-, rfl⟩
  · exact ⟨e, 0#8, rfl, Nat.zero_le _, fun _ => rfl⟩
  · refine ⟨.ok, BitVec.ofNat 8 bytes.length, rfl, ?_, fun hne => absurd rfl hne⟩
    rwa [BitVec.toNat_ofNat, Nat.mod_eq_of_lt hbyte]
  · exact ⟨.ok, 0#8, rfl, Nat.zero_le _, fun _ => rfl⟩

/-- LEN after an operation that ended OK (spec 10_state.md R21). -/
def okLen : Instr → Nat
  | .buildStart => 5
  | .buildSetper => 8
  | .buildStop | .buildReset | .buildClean => 2
  | .buildRdrdy _ | .buildRddata _ | .buildRdser _ | .buildRdper _ => 2
  | .parse size => size.toNat
  | .crc | .chk | .fdec | .sample => 0

/-- A frame's LEN is its length: every frame of at most two payload words is short enough for the field. -/
theorem lenField_builtState {k : Command} {payload : List Half} {res : Word} {s : State} (hp : payload.length ≤ 2) :
    (builtState k payload res s).lenField.toNat = 2 + 3 * payload.length := by
  rw [builtState, State.lenField_finish, BitVec.toNat_ofNat]
  omega

theorem lenField_of_buildFrame {k : Command} {payload : List Half} {res : Word} {s t : State} (hp : payload.length ≤ 2)
    (h : buildFrame k payload res s = .next t) : t.lenField.toNat = 2 + 3 * payload.length := by
  obtain ⟨-, rfl⟩ := buildFrame_next h
  exact lenField_builtState hp

theorem lenField_of_buildRead {k : Command} {size : BitVec 8} {s t : State} (h : buildRead k size s = .next t)
    (hok : t.errField = 0#4) : t.lenField.toNat = 2 := by
  rcases buildRead_next h with ⟨-, -, rfl⟩ | ⟨-, rfl⟩
  · exact lenField_builtState (payload := []) (Nat.zero_le 2)
  · exact absurd hok (errField_finish_ne_zero nofun)

theorem lenField_of_setper {s t : State} (h : execBuildSetper s = .next t) (hok : t.errField = 0#4) : t.lenField.toNat = 8 := by
  rcases setper_next h with ⟨-, rfl⟩ | ⟨-, -, rfl⟩
  · exact absurd hok (errField_finish_ne_zero nofun)
  · exact lenField_builtState (Nat.le_refl 2)

theorem lenField_of_parse {size : BitVec 8} {s t : State} (h : execParse size s = .next t) (hok : t.errField = 0#4) :
    t.lenField = size := by
  rcases parse_next h with ⟨-, rfl⟩ | ⟨-, rfl⟩
  · rcases parseState_cases size s with ⟨g, -, he⟩ | ⟨-, he⟩
    · rw [he] at hok
      exact absurd hok (errField_finish_ne_zero nofun)
    · rw [he, State.lenField_finish]
  · exact absurd hok (errField_finish_ne_zero nofun)

theorem lenField_of_chk {s t : State} (h : execChk s = .next t) : t.lenField = 0#8 := by
  obtain rfl := Host.Outcome.next.inj h
  split <;> exact State.lenField_finish _ _ _ _

/-- LEN after an operation that ended OK, operation by operation. -/
theorem lenField_of_ok {i : Instr} {s t : State} (h : exec i s = .next t) (hok : t.errField = 0#4) : t.lenField.toNat = okLen i := by
  cases i with
  | crc =>
    obtain rfl := Host.Outcome.next.inj h
    exact congrArg _ (State.lenField_finish _ _ _ _)
  | chk => exact congrArg _ (lenField_of_chk h)
  | fdec =>
    obtain rfl := Host.Outcome.next.inj h
    exact congrArg _ (State.lenField_finish _ _ _ _)
  | buildStart => exact lenField_of_buildFrame (by simp) h
  | buildStop => exact lenField_of_buildFrame (by simp) h
  | buildReset => exact lenField_of_buildFrame (by simp) h
  | buildRdrdy size => exact lenField_of_buildRead h hok
  | buildRddata size => exact lenField_of_buildRead h hok
  | buildRdser size => exact lenField_of_buildRead h hok
  | buildClean => exact lenField_of_buildFrame (by simp) h
  | buildSetper => exact lenField_of_setper h hok
  | buildRdper size => exact lenField_of_buildRead h hok
  | parse size => exact congrArg _ (lenField_of_parse h hok)
  | sample =>
    rw [sample_next_of_ok h hok]
    exact congrArg _ (State.lenField_finish _ _ _ _)

/-- Settles O46: STATUS is the word `finish` packs (`exec_next_status`), and LEN after OK is `okLen`. -/
theorem lenFollowsTheOperation : Obligations.LenFollowsTheOperation := by
  unfold Obligations.LenFollowsTheOperation
  intro i s t _ h
  obtain ⟨e, len, hstatus, hfit, herror⟩ := exec_next_status h
  have herr : t.errField = e.code := by rw [State.errField, hstatus, errOf_statusWord]
  have hlen : t.lenField = len := by rw [State.lenField, hstatus, lenOf_statusWord]
  refine ⟨?_, ?_, ?_, ?_⟩
  · rw [hstatus, herr, hlen, statusWord_toNat]
  · rwa [hlen]
  · rw [herr, hlen, ne_eq, ErrCode.code_eq_zero]
    exact fun hne => congrArg _ (herror hne)
  · intro hok
    rw [lenField_of_ok h hok]
    cases i <;> rfl

end Sys2Proof.Machine
end

section
/-! What an operation produces is a function of the parameters, ARG and BUF: shared operation by shared operation, then for `exec`. -/

namespace Sys2Proof.Machine

open Sys2Proof.Spec

/-- What every operation writes for the host: STATUS, RESULT and BUF; none where it stops. -/
def products : Outcome → Option (Word × Word × Memory)
  | .next t => some (t.status, t.result, t.buf)
  | .fault _ => none
  | .refused _ => none

/-- An outcome with products is a next state that holds them. -/
theorem next_of_products {o : Outcome} {t : State} (h : products o = products (.next t)) :
    ∃ t', o = .next t' ∧ t'.status = t.status ∧ t'.result = t.result ∧ t'.buf = t.buf := by
  cases o with
  | next t' =>
    obtain ⟨hstatus, hresult, hbuf⟩ : t'.status = t.status ∧ t'.result = t.result ∧ t'.buf = t.buf := by
      simpa [products] using h
    exact ⟨t', rfl, hstatus, hresult, hbuf⟩
  | fault r => exact absurd h nofun
  | refused r => exact absurd h nofun

/-- The two states agree on what an operation reads (spec 10_state.md R26): the parameters, ARG and BUF. -/
structure SameInputs (s s' : State) : Prop where
  cfg : s'.cfg = s.cfg
  arg : s'.arg = s.arg
  buf : s'.buf = s.buf

section
variable {s s' : State}

theorem SameInputs.products_finish (h : SameInputs s s') (e : ErrCode) (len : BitVec 8) (res : Word) :
    products (.next (s'.finish e len res)) = products (.next (s.finish e len res)) := by
  simp [products, h.buf]

theorem SameInputs.products_guardBuf (h : SameInputs s s') (a n : Nat) {t t' : State}
    (ht : products (.next t') = products (.next t)) : products (guardBuf s' a n t') = products (guardBuf s a n t) := by
  unfold guardBuf
  rw [h.cfg]
  split
  · exact ht
  · rfl

theorem SameInputs.products_withLegalSize (h : SameInputs s s') (size : BitVec 8) {o o' : Outcome}
    (ho : products o' = products o) : products (withLegalSize s' size o') = products (withLegalSize s size o) := by
  unfold withLegalSize
  rw [h.cfg]
  split
  · exact ho
  · exact h.products_finish .illegal 0#8 0#32

theorem SameInputs.products_buildFrame (h : SameInputs s s') (k : Command) (payload : List Half) (res : Word) :
    products (buildFrame k payload res s') = products (buildFrame k payload res s) := by
  unfold buildFrame
  rw [h.cfg, h.buf]
  exact h.products_guardBuf _ _ rfl

theorem SameInputs.products_buildRead (h : SameInputs s s') (k : Command) (size : BitVec 8) :
    products (buildRead k size s') = products (buildRead k size s) :=
  h.products_withLegalSize size (h.products_buildFrame k [] _)

theorem SameInputs.products_setper (h : SameInputs s s') : products (execBuildSetper s') = products (execBuildSetper s) := by
  have hperiod : s'.period = s.period := h.arg
  unfold execBuildSetper State.periodHigh State.periodLow
  rw [hperiod]
  split
  · exact h.products_finish .arg 0#8 0#32
  · exact h.products_buildFrame .setper _ 0#32

theorem SameInputs.products_crc (h : SameInputs s s') : products (execCrc s') = products (execCrc s) := by
  unfold execCrc State.crcByte0 State.crcByte1
  rw [h.cfg, h.arg]
  exact h.products_finish .ok 0#8 _

theorem SameInputs.products_chk (h : SameInputs s s') : products (execChk s') = products (execChk s) := by
  unfold execChk State.chkComputed State.chkByte0 State.chkByte1 State.chkReceived
  rw [h.cfg, h.arg]
  split
  · exact h.products_finish .ok 0#8 _
  · exact h.products_finish .checksum 0#8 _

theorem SameInputs.products_fdec (h : SameInputs s s') : products (execFdec s') = products (execFdec s) := by
  unfold execFdec State.floatBits
  rw [h.arg]
  exact h.products_finish .ok 0#8 _

theorem SameInputs.products_parse (h : SameInputs s s') (size : BitVec 8) :
    products (execParse size s') = products (execParse size s) := by
  refine h.products_withLegalSize size (h.products_guardBuf _ _ ?_)
  unfold parseState
  rw [h.cfg, h.buf]
  split
  · exact h.products_finish .checksum 0#8 _
  · rfl

theorem SameInputs.products_sample (h : SameInputs s s') : products (execSample s') = products (execSample s) := by
  refine h.products_guardBuf _ _ ?_
  unfold sampleState
  rw [h.cfg, h.buf]
  split
  · exact h.products_finish .checksum 0#8 _
  · simp [products, h.buf]

/-- No operation produces anything from OP, RESULT, STATUS, the channels or the host's side (spec 10_state.md R26). -/
theorem SameInputs.products_exec (h : SameInputs s s') (i : Instr) : products (exec i s') = products (exec i s) := by
  cases i with
  | crc => exact h.products_crc
  | chk => exact h.products_chk
  | fdec => exact h.products_fdec
  | buildStart =>
    unfold exec execBuildStart
    rw [h.cfg]
    exact h.products_buildFrame .start _ 0#32
  | buildStop => exact h.products_buildFrame .stop [] 0#32
  | buildReset => exact h.products_buildFrame .reset [] 0#32
  | buildRdrdy size => exact h.products_buildRead .rdrdy size
  | buildRddata size => exact h.products_buildRead .rddata size
  | buildRdser size => exact h.products_buildRead .rdser size
  | buildClean => exact h.products_buildFrame .clean [] 0#32
  | buildSetper => exact h.products_setper
  | buildRdper size => exact h.products_buildRead .rdper size
  | parse size => exact h.products_parse size
  | sample => exact h.products_sample

/-- Two SAMPLEs that end OK on the same BUF leave the same channels. -/
theorem SameInputs.sameChannels_of_sample (h : SameInputs s s') {t t' : State} (hs : exec .sample s = .next t)
    (hs' : exec .sample s' = .next t') (hok : t.errField = 0#4) (hok' : t'.errField = 0#4) : SameChannels t t' := by
  rw [sample_next_of_ok hs hok, sample_next_of_ok hs' hok', h.buf]
  exact ⟨rfl, rfl, rfl, rfl⟩

end

/-- Settles O42: canonical memories that read the same are the same, so the two states agree on all an operation reads. -/
theorem outcomeDependsOnlyOnArgAndBuf : Obligations.OutcomeDependsOnlyOnArgAndBuf := by
  unfold Obligations.OutcomeDependsOnlyOnArgAndBuf
  intro i s s' t hwf hwf' hcfg harg hbuf h
  have hin : SameInputs s s' := ⟨hcfg, harg, Memory.ext_of_readByte hwf' hwf hbuf⟩
  obtain ⟨t', h', hstatus, hresult, hbuf'⟩ := next_of_products (h ▸ hin.products_exec i)
  refine ⟨t', h', hstatus, hresult, fun a => by rw [hbuf'], ?_⟩
  rintro rfl hok
  exact hin.sameChannels_of_sample h h' hok ((congrArg errOf hstatus).trans hok)

end Sys2Proof.Machine
end

section
/-! Single inputs: a write to OP, a write to ARG, a reset, and the state the machine starts in. -/

namespace Sys2Proof.Machine

open Sys2Proof.Spec

/-- Offset 0 is OP (spec 20_memory.md R29, R34). -/
@[simp] theorem hostWrite_op (w : Word) (s : State) : hostWrite 0x00#8 w s = startOperation w s := rfl

/-- Offset 4 is ARG (spec 20_memory.md R29, R34). -/
@[simp] theorem hostWrite_arg (v : Word) (s : State) : hostWrite 0x04#8 v s = .next (s.setArg v) := rfl

/-- A step whose oldest input is a write of the interface is that write. -/
theorem step_of_aligned_write {s : State} {off : Offset} {v : Word} {rest : List BusInput}
    (h : s.pending = .write 32 off v :: rest) (halign : off.toNat % 4 = 0) : step s = hostWrite off v (s.setPending rest) :=
  (step_of_write h).trans (withAccess_of_aligned halign)

/-- Settles O6: the write reaches OP, and the word is dispatched. -/
theorem stepRunsDecodedOperation : Obligations.StepRunsDecodedOperation := by
  unfold Obligations.StepRunsDecodedOperation
  intro s w rest i hp hdecode
  calc step s = startOperation w (s.setPending rest) := step_of_aligned_write hp rfl
    _ = exec i ((s.setPending rest).setOp w) := startOperation_of_ok hdecode

/-- Settles O10: the write reaches ARG, and `setArg` stores it. -/
theorem argWriteStoresOnly : Obligations.ArgWriteStoresOnly := by
  unfold Obligations.ArgWriteStoresOnly
  intro s v rest hp
  exact step_of_aligned_write hp rfl

@[simp] theorem Memory.readByte_nil (a : Nat) : Memory.readByte [] a = 0#8 := rfl

@[simp] theorem Memory.readWord_nil (a : Nat) : Memory.readWord [] a = 0#32 := by
  simp [Memory.readWord]

/-- Every offset reads 0 after reset, whatever it names (spec 10_state.md R27). -/
theorem hostRead_reset (off : Offset) : hostRead State.reset off = 0#32 := by
  cases hw : windowMap State.reset.cfg.bufBytes off <;> simp only [hostRead, hw]
  case bufWord a => exact Memory.readWord_nil a
  all_goals rfl

/-- Settles O13: `platformReset` and `State.reset` hold 0 in every field of the block, and an empty BUF reads 0. -/
theorem resetClearsTheBlock : Obligations.ResetClearsTheBlock := by
  unfold Obligations.ResetClearsTheBlock
  refine ⟨fun s rest hp => ⟨_, step_of_reset hp, ?_⟩, ?_⟩
  · exact ⟨rfl, rfl, ⟨rfl, rfl⟩, rfl, rfl, rfl, rfl, Memory.readByte_nil⟩
  · exact ⟨rfl, rfl, ⟨rfl, rfl⟩, rfl, rfl, rfl, rfl, Memory.readByte_nil, hostRead_reset⟩

/-- Settles O47: the state at reset is what the platform's reset leaves of it, and the default parameters are legal. -/
theorem resetMeetsInvariant : Obligations.ResetMeetsInvariant := by
  unfold Obligations.ResetMeetsInvariant
  have hcfg : State.reset.cfg.wf := by decide
  exact inv_platformReset hcfg

end Sys2Proof.Machine
end

section
/-! Progress: with legal parameters every access of the interface answers with a next state, so runs complete. -/

namespace Sys2Proof.Machine

/-- With legal parameters a BUILD of a read command answers, its size legal or not. -/
theorem buildRead_of_wf {s : State} (h : s.cfg.wf) (k : Command) (size : BitVec 8) : ∃ t, buildRead k size s = .next t := by
  cases hl : legalSize s.cfg.bufBytes size with
  | true => exact ⟨_, (withLegalSize_of_legal hl).trans (buildFrame_of_wf h (Nat.zero_le 2))⟩
  | false => exact ⟨_, withLegalSize_of_illegal hl⟩

theorem execBuildSetper_of_wf {s : State} (h : s.cfg.wf) : ∃ t, execBuildSetper s = .next t := by
  unfold execBuildSetper
  split
  · exact ⟨_, rfl⟩
  · exact ⟨_, buildFrame_of_wf h (Nat.le_refl 2)⟩

/-- A PARSE answers with any parameters: its size check is its bounds check. -/
theorem execParse_answers (size : BitVec 8) (s : State) : ∃ t, execParse size s = .next t := by
  cases hl : legalSize s.cfg.bufBytes size with
  | true => exact ⟨_, execParse_of_legal hl⟩
  | false => exact ⟨_, withLegalSize_of_illegal hl⟩

/-- With legal parameters every operation answers (spec 20_memory.md R37, 60_exceptions.md R99). -/
theorem exec_of_wf {s : State} (h : s.cfg.wf) (i : Instr) : ∃ t, exec i s = .next t := by
  cases i with
  | crc => exact ⟨_, rfl⟩
  | chk => exact ⟨_, rfl⟩
  | fdec => exact ⟨_, rfl⟩
  | buildStart => exact ⟨_, buildFrame_of_wf h (by simp)⟩
  | buildStop => exact ⟨_, buildFrame_of_wf h (by simp)⟩
  | buildReset => exact ⟨_, buildFrame_of_wf h (by simp)⟩
  | buildRdrdy size => exact buildRead_of_wf h .rdrdy size
  | buildRddata size => exact buildRead_of_wf h .rddata size
  | buildRdser size => exact buildRead_of_wf h .rdser size
  | buildClean => exact ⟨_, buildFrame_of_wf h (by simp)⟩
  | buildSetper => exact execBuildSetper_of_wf h
  | buildRdper size => exact buildRead_of_wf h .rdper size
  | parse size => exact execParse_answers size s
  | sample => exact ⟨_, execSample_of_wf h⟩

/-- With legal parameters every write to OP answers. -/
theorem startOperation_of_wf {s : State} (h : s.cfg.wf) (w : Word) : ∃ t, startOperation w s = .next t := by
  cases hd : decode s.cfg.bufBytes w with
  | ok i =>
    obtain ⟨t, ht⟩ := exec_of_wf (s := s.setOp w) h i
    exact ⟨t, (startOperation_of_ok hd).trans ht⟩
  | error e => exact ⟨_, startOperation_of_error hd⟩

/-- With legal parameters every aligned write answers: BUF_BYTES is a multiple of 4, so a BUF word that starts inside BUF ends inside it
(spec 00_scope.md R10, 20_memory.md R37). -/
theorem hostWrite_of_wf {s : State} {off : Offset} (h : s.cfg.wf) (halign : off.toNat % 4 = 0) (v : Word) :
    ∃ t, hostWrite off v s = .next t := by
  cases hw : windowMap s.cfg.bufBytes off <;> simp only [hostWrite, hw]
  case op => exact startOperation_of_wf h v
  case bufWord a =>
    obtain ⟨hoff, ha⟩ := windowMap_eq_bufWord hw
    have hmul : s.cfg.bufBytes % 4 = 0 := h.1
    have hbase : bufBase = 0x80 := rfl
    exact ⟨_, guardBuf_of_le (by omega)⟩
  all_goals exact ⟨_, rfl⟩

/-- With legal parameters an input of the interface is performed (spec 20_memory.md R38, R39). -/
theorem step_of_inInterface {s : State} {a : BusInput} {rest : List BusInput} (h : s.cfg.wf) (hp : s.pending = a :: rest)
    (ha : a.inInterface = true) : ∃ t, step s = .next t := by
  cases a with
  | read bits off =>
    obtain ⟨rfl, halign⟩ : bits = 32 ∧ off.toNat % 4 = 0 := by simpa [BusInput.inInterface] using ha
    exact ⟨_, (step_of_read hp).trans (withAccess_of_aligned halign)⟩
  | write bits off v =>
    obtain ⟨rfl, halign⟩ : bits = 32 ∧ off.toNat % 4 = 0 := by simpa [BusInput.inInterface] using ha
    obtain ⟨t, ht⟩ := hostWrite_of_wf (s := s.setPending rest) h halign v
    exact ⟨t, (step_of_aligned_write hp halign).trans ht⟩
  | platformReset => exact ⟨_, step_of_reset hp⟩

/-- An input outside the interface is refused (spec 20_memory.md R32). -/
theorem step_of_not_inInterface {s : State} {a : BusInput} {rest : List BusInput} (hp : s.pending = a :: rest)
    (ha : a.inInterface = false) : ∃ r, step s = .refused r := by
  cases a with
  | read bits off =>
    rw [step_of_read hp]
    rcases withAccess_cases bits off _ with ⟨rfl, halign, -⟩ | ⟨-, hr⟩
    · simp [BusInput.inInterface, halign] at ha
    · exact hr
  | write bits off v =>
    rw [step_of_write hp]
    rcases withAccess_cases bits off _ with ⟨rfl, halign, -⟩ | ⟨-, hr⟩
    · simp [BusInput.inInterface, halign] at ha
    · exact hr
  | platformReset => exact absurd ha (by decide)

/-- A host write leaves the parameters and the host's side. -/
theorem hostWrite_leaves_host {off : Offset} {v : Word} {s t : State} (h : hostWrite off v s = .next t) :
    t.cfg = s.cfg ∧ t.pending = s.pending ∧ t.lastRead = s.lastRead := by
  rcases hostWrite_next h with ⟨-, h⟩ | ⟨-, rfl⟩ | ⟨a, -, -, rfl⟩ | rfl
  · rcases startOperation_next h with ⟨i, -, h⟩ | ⟨-, rfl⟩
    · obtain ⟨hcfg, -, -, hpending, hlast⟩ := operationsLeaveArgAndOpAlone i _ t h
      exact ⟨hcfg, hpending, hlast⟩
    · exact ⟨rfl, rfl, rfl⟩
  all_goals exact ⟨rfl, rfl, rfl⟩

/-- A step takes the oldest input and leaves the others (spec 00_scope.md R5). -/
theorem step_next_pending {s t : State} (h : step s = .next t) : ∃ a, s.pending = a :: t.pending := by
  rcases step_next_cases h with ⟨off, rest, hp, -, rfl⟩ | ⟨off, v, rest, hp, -, h⟩ | ⟨rest, hp, rfl⟩
  · exact ⟨_, hp⟩
  · obtain ⟨-, hpending, -⟩ := hostWrite_leaves_host h
    exact ⟨_, hp.trans (congrArg _ hpending.symm)⟩
  · exact ⟨_, hp⟩

/-- Settles O50, by induction on the inputs still to come: the oldest is performed (`step_of_inInterface`), the invariant is kept
(`stepKeepsInvariant`), and the others are what remains. -/
theorem everyInterfaceSequenceCompletes : Obligations.EveryInterfaceSequenceCompletes := by
  unfold Obligations.EveryInterfaceSequenceCompletes
  intro s hinv hin
  induction hq : s.pending generalizing s with
  | nil => exact ⟨s, rfl, hinv⟩
  | cons a rest ih =>
    rw [hq] at hin
    obtain ⟨ha, hrest⟩ := List.forall_mem_cons.mp hin
    obtain ⟨t, hstep⟩ := step_of_inInterface hinv.1 hq ha
    obtain ⟨b, hb⟩ := step_next_pending hstep
    obtain ⟨-, rfl⟩ := List.cons.inj (hq.symm.trans hb)
    obtain ⟨u, hrun, hu⟩ := ih t (stepKeepsInvariant s t hinv hstep) hrest rfl
    exact ⟨u, (core_run_succ _ hstep).trans hrun, hu⟩

/-- Settles O12: neither access is an input of the interface (`step_of_not_inInterface`). -/
theorem accessOutsideInterfaceIsRefused : Obligations.AccessOutsideInterfaceIsRefused := by
  unfold Obligations.AccessOutsideInterfaceIsRefused
  intro s a rest bits off v hp ha hout
  refine step_of_not_inInterface hp ?_
  have hcheck : (bits == 32 && off.toNat % 4 == 0) = false := by
    rcases hout with hbits | halign
    · simp [hbits]
    · simp [halign]
  rcases ha with rfl | rfl <;> exact hcheck

/-- Settles O49: with nothing pending, or an input outside the interface, the step is refused; any other input is performed. -/
theorem noInputReachesBeyondBuf : Obligations.NoInputReachesBeyondBuf := by
  unfold Obligations.NoInputReachesBeyondBuf
  intro s f hcfg hfault
  match hp : s.pending with
  | [] => exact absurd ((step_of_idle hp).symm.trans hfault) nofun
  | a :: rest =>
    cases ha : a.inInterface with
    | true =>
      obtain ⟨t, ht⟩ := step_of_inInterface hcfg hp ha
      exact absurd (ht.symm.trans hfault) nofun
    | false =>
      obtain ⟨r, hr⟩ := step_of_not_inInterface hp ha
      exact absurd (hr.symm.trans hfault) nofun

end Sys2Proof.Machine
end

section
/-! The host window: what a read of each offset returns, what a write of a BUF word stores, and the accesses that do nothing. -/

namespace Sys2Proof.Machine

/-- A read looks at the block alone, not at the host's side. -/
@[simp] theorem hostRead_setPending (s : State) (rest : List BusInput) (off : Offset) :
    hostRead (s.setPending rest) off = hostRead s off := rfl

@[simp] theorem hostRead_setLastRead (s : State) (v : Word) (off : Offset) : hostRead (s.setLastRead v) off = hostRead s off := rfl

/-- A step whose oldest input is a read of the interface is that read. -/
theorem step_of_aligned_read {s : State} {off : Offset} {rest : List BusInput} (h : s.pending = .read 32 off :: rest)
    (halign : off.toNat % 4 = 0) : step s = .next ((s.setPending rest).setLastRead (hostRead s off)) :=
  (step_of_read h).trans (withAccess_of_aligned halign)

/-- Offset 0x80 + 4k names BUF word k (spec 20_memory.md R29). -/
theorem windowMap_of_bufWord {bufBytes k : Nat} {off : Offset} (hk : k < bufBytes / 4) (hoff : off.toNat = 0x80 + 4 * k) :
    windowMap bufBytes off = .bufWord (4 * k) := by
  have hbase : bufBase = 0x80 := rfl
  rw [windowMap_bufWord (by omega) (by omega), hoff, hbase, Nat.add_sub_cancel_left]

/-- A read of BUF word k (spec 20_memory.md R35). -/
theorem hostRead_bufWord {s : State} {off : Offset} {k : Nat} (hk : k < s.cfg.bufBytes / 4) (hoff : off.toNat = 0x80 + 4 * k) :
    hostRead s off = s.buf.readWord (4 * k) := by
  rw [hostRead, windowMap_of_bufWord hk hoff]

/-- A write of BUF word k stores its four bytes: the word lies inside BUF (spec 20_memory.md R35). -/
theorem hostWrite_bufWord {s : State} {off : Offset} {k : Nat} (v : Word) (hk : k < s.cfg.bufBytes / 4)
    (hoff : off.toNat = 0x80 + 4 * k) : hostWrite off v s = .next (s.setBuf (s.buf.writeBytes (4 * k) (wordBytes v))) := by
  rw [hostWrite, windowMap_of_bufWord hk hoff]
  exact guardBuf_of_le (by omega)

/-- The offsets the map of R29 leaves reserved, on a block of `bufBytes` bytes of BUF. -/
abbrev ReservedOffset (bufBytes : Nat) (off : Offset) : Prop :=
  0x20 ≤ off.toNat ∧ off.toNat < 0x80 ∨ 0x80 + bufBytes ≤ off.toNat

/-- A reserved offset reads 0 (spec 20_memory.md R30). -/
theorem hostRead_reserved {s : State} {off : Offset} (h : ReservedOffset s.cfg.bufBytes off) : hostRead s off = 0#32 := by
  rw [hostRead, windowMap_reserved h]

/-- A write to a reserved offset does nothing (spec 20_memory.md R30). -/
theorem hostWrite_reserved {s : State} {off : Offset} (v : Word) (h : ReservedOffset s.cfg.bufBytes off) :
    hostWrite off v s = .next s := by
  rw [hostWrite, windowMap_reserved h]

/-- A write to a read-only register does nothing (spec 20_memory.md R31). -/
theorem hostWrite_readOnly {off : Offset} (v : Word) (s : State)
    (h : off ∈ [0x08#8, 0x0C#8, 0x10#8, 0x14#8, 0x18#8, 0x1C#8]) : hostWrite off v s = .next s := by
  simp only [List.mem_cons, List.not_mem_nil, or_false] at h
  rcases h with rfl | rfl | rfl | rfl | rfl | rfl <;> rfl

/-- Settles O7: the read is one step, the eight registers are read off the map, and the other offsets are BUF words or reserved. -/
theorem windowReadReturnsMappedValue : Obligations.WindowReadReturnsMappedValue := by
  unfold Obligations.WindowReadReturnsMappedValue
  intro s off rest hp halign
  refine ⟨_, hostRead s off, step_of_aligned_read hp halign, rfl, ?_, ?_, ?_, ?_, ?_, ?_, ?_, ?_,
    fun k hk hoff => hostRead_bufWord hk hoff, hostRead_reserved⟩
  all_goals
    rintro rfl
    rfl

/-- Settles O11: neither kind of write reaches a field (`hostWrite_readOnly`, `hostWrite_reserved`), and a reserved offset reads 0. -/
theorem reservedAndReadOnlyOffsets : Obligations.ReservedAndReadOnlyOffsets := by
  unfold Obligations.ReservedAndReadOnlyOffsets
  refine ⟨fun s off v rest hp halign hoff => ?_, fun s off rest hp halign hoff => ?_⟩
  · rw [step_of_aligned_write hp halign]
    rcases hoff with hreadOnly | hreserved
    · exact hostWrite_readOnly v _ hreadOnly
    · exact hostWrite_reserved v hreserved
  · rw [step_of_aligned_read hp halign, hostRead_reserved hoff]
    rfl

/-- A run of reads: the last one decides what was read last, and the block stays as it was (spec 20_memory.md R33). -/
theorem run_of_reads {s : State} {off : Offset} {between : List Offset} {rest : List BusInput}
    (halign : ∀ o ∈ between, o.toNat % 4 = 0) (hoff : off.toNat % 4 = 0)
    (hp : s.pending = between.map (BusInput.read 32) ++ .read 32 off :: rest) :
    Sys2Proof.core.run (between.length + 1) s = .next ((s.setPending rest).setLastRead (hostRead s off)) := by
  induction between generalizing s with
  | nil => exact core_run_succ 0 (step_of_aligned_read hp hoff)
  | cons o between ih =>
    obtain ⟨ho, halign⟩ := List.forall_mem_cons.mp halign
    rw [List.length_cons, core_run_succ _ (step_of_aligned_read hp ho)]
    exact ih halign rfl

/-- Settles O8: the first read is one step, the others are a run of reads that ends with the same offset. -/
theorem hostReadsHaveNoSideEffect : Obligations.HostReadsHaveNoSideEffect := by
  unfold Obligations.HostReadsHaveNoSideEffect
  intro s off between rest halign hp
  obtain ⟨hoff, hbetween⟩ := List.forall_mem_cons.mp halign
  exact ⟨_, _, step_of_aligned_read hp hoff, run_of_reads hbetween hoff rfl, rfl, rfl, rfl⟩

/-- A word's four bytes, most significant first, are the word. -/
theorem append_wordBytes (v : Word) :
    v.extractLsb' 24 8 ++ v.extractLsb' 16 8 ++ v.extractLsb' 8 8 ++ v.extractLsb' 0 8 = v := by
  rw [BitVec.extractLsb'_append_extractLsb'_eq_extractLsb' (rfl : 24 = 16 + 8),
    BitVec.extractLsb'_append_extractLsb'_eq_extractLsb' (rfl : 16 = 8 + 8),
    BitVec.extractLsb'_append_extractLsb'_eq_extractLsb' (rfl : 8 = 0 + 8)]
  exact BitVec.extractLsb'_eq_self

/-- Byte `j` of a word written at index `a` (spec 20_memory.md R35). -/
theorem Memory.readByte_writeBytes_wordBytes {m : Memory} (h : m.wf) (a : Nat) (v : Word) (j : Nat) (hj : j < 4) :
    (m.writeBytes a (wordBytes v)).readByte (a + j) = (wordBytes v)[j] :=
  Memory.readByte_writeBytes_inside h a (wordBytes v) j hj

/-- A word written to BUF reads back as itself (spec 20_memory.md R35). -/
theorem Memory.readWord_writeBytes_wordBytes {m : Memory} (h : m.wf) (a : Nat) (v : Word) :
    Memory.readWord (m.writeBytes a (wordBytes v)) a = v := by
  have hbyte := Memory.readByte_writeBytes_wordBytes h a v
  have hfirst : (m.writeBytes a (wordBytes v)).readByte a = v.extractLsb' 24 8 := hbyte 0 (by decide)
  rw [Memory.readWord, hfirst, hbyte 1 (by decide), hbyte 2 (by decide), hbyte 3 (by decide)]
  exact append_wordBytes v

/-- Settles O9: the write goes through (`hostWrite_bufWord`), and BUF then holds the word's bytes, and the other bytes as before. -/
theorem bufWordWriteIsBigEndian : Obligations.BufWordWriteIsBigEndian := by
  unfold Obligations.BufWordWriteIsBigEndian
  intro s off k v rest hwf hk hoff hp
  have hstep := (step_of_aligned_write hp (by omega)).trans (hostWrite_bufWord v hk hoff)
  have hbyte := Memory.readByte_writeBytes_wordBytes hwf (4 * k) v
  refine ⟨hostRead_bufWord hk hoff, _, hstep, hbyte 0 (by decide), hbyte 1 (by decide), hbyte 2 (by decide), hbyte 3 (by decide),
    Memory.readByte_writeBytes_outside hwf (4 * k) (wordBytes v), ?_, ⟨rfl, rfl, rfl, rfl, rfl, rfl, rfl⟩, rfl, rfl, rfl, rfl⟩
  exact (hostRead_bufWord (s := (s.setPending rest).setBuf _) hk hoff).trans
    (Memory.readWord_writeBytes_wordBytes hwf (4 * k) v)

end Sys2Proof.Machine
end

section
/-! BUF and the operations: which bytes an operation writes, and which it reads. -/

namespace Sys2Proof.Machine

open Sys2Proof.Spec

/-- An operation that is no BUILD and no PARSE writes no byte of BUF (spec 20_memory.md R37). -/
theorem exec_leaves_buf {i : Instr} {s t : State} (hi : i ∈ [.crc, .chk, .fdec, .sample]) (h : exec i s = .next t) :
    t.buf = s.buf := by
  simp only [List.mem_cons, List.not_mem_nil, or_false] at hi
  rcases hi with rfl | rfl | rfl | rfl
  · obtain rfl := Host.Outcome.next.inj h
    rfl
  · obtain rfl := Host.Outcome.next.inj h
    split <;> rfl
  · obtain rfl := Host.Outcome.next.inj h
    rfl
  · obtain ⟨-, rfl⟩ := sample_next h
    rcases sampleState_cases s with ⟨g, -, he⟩ | ⟨-, he⟩ <;> rw [he] <;> rfl

/-- Settles O40: the three ends of an operation (`exec_next_cases`) write nothing, or as many bytes from BUF[0] on as LEN says. -/
theorem operationsWriteOnlyBufBelowLen : Obligations.OperationsWriteOnlyBufBelowLen := by
  unfold Obligations.OperationsWriteOnlyBufBelowLen
  intro i s t hwf h
  refine ⟨?_, fun hi a => by rw [exec_leaves_buf hi h]⟩
  rcases exec_next_cases h with ⟨e, res, rfl⟩ | ⟨bytes, res, -, hbyte, rfl⟩ | ⟨-, rfl⟩
  · exact fun a _ => rfl
  · intro a ha
    rw [State.lenField_finish, BitVec.toNat_ofNat, Nat.mod_eq_of_lt hbyte] at ha
    exact Memory.readByte_writeBytes_outside hwf 0 bytes a (by omega)
  · exact fun a _ => rfl

/-- The two memories read the same below `n`. -/
def Memory.AgreeBelow (n : Nat) (m m' : Memory) : Prop := ∀ a < n, m'.readByte a = m.readByte a

/-- Group `g` is judged by its three bytes (spec 42_frame_parser.md R83). -/
theorem Memory.AgreeBelow.groupOk {m m' : Memory} {n g : Nat} (h : Memory.AgreeBelow (3 * n) m m') (hg : g < n) (c : Byte) :
    groupOk c m' g = groupOk c m g := by
  rw [Machine.groupOk, Machine.groupOk, h (3 * g) (by omega), h (3 * g + 1) (by omega), h (3 * g + 2) (by omega)]

theorem Memory.AgreeBelow.firstBad {m m' : Memory} {n : Nat} (h : Memory.AgreeBelow (3 * n) m m') (c : Byte) :
    firstBad c m' n = firstBad c m n :=
  List.find?_congr fun _ hg => congrArg _ (h.groupOk (List.mem_range.mp hg) c)

theorem Memory.AgreeBelow.strippedData {m m' : Memory} {n : Nat} (h : Memory.AgreeBelow (3 * n) m m') :
    strippedData m' n = strippedData m n := by
  refine List.flatMap_congr fun g hg => ?_
  have hg := List.mem_range.mp hg
  rw [groupData, groupData, h (3 * g) (by omega), h (3 * g + 1) (by omega)]

/-- The four channels lie in the first 24 bytes (spec 30_encoding.md R58). -/
theorem Memory.AgreeBelow.channelBits {m m' : Memory} (h : Memory.AgreeBelow 24 m m') {k : Nat} (hk : k < 4) :
    channelBits m' k = channelBits m k := by
  rw [Machine.channelBits, Machine.channelBits, h (6 * k) (by omega), h (6 * k + 1) (by omega), h (6 * k + 3) (by omega),
    h (6 * k + 4) (by omega)]

/-- The two states show the host the same end of an operation: STATUS, RESULT, the channels, and the bytes below LEN. -/
def SameEnd (t t' : State) : Prop :=
  t'.status = t.status ∧ t'.result = t.result ∧ SameChannels t t' ∧ ∀ a < t.lenField.toNat, t'.buf.readByte a = t.buf.readByte a

/-- Where the one outcome is a next state, so is the other, with the same end. -/
def AnswersAlike (o o' : Outcome) : Prop := ∀ t, o = .next t → ∃ t', o' = .next t' ∧ SameEnd t t'

theorem answersAlike_next {t t' : State} (h : SameEnd t t') : AnswersAlike (.next t) (.next t') := by
  intro u hu
  obtain rfl := Host.Outcome.next.inj hu
  exact ⟨t', rfl, h⟩

section
variable {s : State} {m : Memory}

/-- With LEN = 0 no byte of BUF counts. -/
theorem sameEnd_finish_zero (e : ErrCode) (res : Word) : SameEnd (s.finish e 0#8 res) ((s.setBuf m).finish e 0#8 res) := by
  refine ⟨rfl, rfl, ⟨rfl, rfl, rfl, rfl⟩, fun a ha => ?_⟩
  rw [State.lenField_finish] at ha
  exact absurd ha (Nat.not_lt_zero a)

/-- The bytes written are the same, whatever was there before. -/
theorem sameEnd_writeBytes (hwf : s.buf.wf) (hwf' : m.wf) {bytes : List Byte} {len : BitVec 8} (hlen : len.toNat ≤ bytes.length)
    (e : ErrCode) (res : Word) :
    SameEnd ((s.setBuf (s.buf.writeBytes 0 bytes)).finish e len res)
      (((s.setBuf m).setBuf (m.writeBytes 0 bytes)).finish e len res) := by
  refine ⟨rfl, rfl, ⟨rfl, rfl, rfl, rfl⟩, fun a ha => ?_⟩
  rw [State.lenField_finish] at ha
  have hread : ∀ {b : Memory}, b.wf → (b.writeBytes 0 bytes).readByte a = bytes[a] := fun hb => by
    rw [← Memory.readByte_writeBytes_inside hb 0 bytes a (by omega), Nat.zero_add]
  exact (hread hwf').trans (hread hwf).symm

theorem answersAlike_guardBuf (a n : Nat) {t t' : State} (h : SameEnd t t') :
    AnswersAlike (guardBuf s a n t) (guardBuf (s.setBuf m) a n t') := by
  intro u hu
  obtain ⟨hfit, rfl⟩ := guardBuf_next hu
  exact ⟨t', guardBuf_of_le hfit, h⟩

theorem answersAlike_withLegalSize (size : BitVec 8) {o o' : Outcome}
    (h : legalSize s.cfg.bufBytes size = true → AnswersAlike o o') :
    AnswersAlike (withLegalSize s size o) (withLegalSize (s.setBuf m) size o') := by
  cases hl : legalSize s.cfg.bufBytes size with
  | true =>
    rw [withLegalSize_of_legal hl, withLegalSize_of_legal (s := s.setBuf m) hl]
    exact h hl
  | false =>
    rw [withLegalSize_of_illegal hl, withLegalSize_of_illegal (s := s.setBuf m) hl]
    exact answersAlike_next (sameEnd_finish_zero .illegal 0#32)

/-- A frame is made of the parameters and its payload. -/
theorem answersAlike_buildFrame (hwf : s.buf.wf) (hwf' : m.wf) (k : Command) (payload : List Half) (res : Word) :
    AnswersAlike (buildFrame k payload res s) (buildFrame k payload res (s.setBuf m)) :=
  answersAlike_guardBuf _ _ (sameEnd_writeBytes hwf hwf' (by rw [BitVec.toNat_ofNat]; exact Nat.mod_le _ _) .ok res)

theorem answersAlike_buildRead (hwf : s.buf.wf) (hwf' : m.wf) (k : Command) (size : BitVec 8) :
    AnswersAlike (buildRead k size s) (buildRead k size (s.setBuf m)) :=
  answersAlike_withLegalSize size fun _ => answersAlike_buildFrame hwf hwf' k [] _

theorem answersAlike_setper (hwf : s.buf.wf) (hwf' : m.wf) :
    AnswersAlike (execBuildSetper s) (execBuildSetper (s.setBuf m)) := by
  unfold execBuildSetper
  by_cases hmax : periodMax < s.period.toNat
  · rw [if_pos hmax, if_pos (show periodMax < (s.setBuf m).period.toNat from hmax)]
    exact answersAlike_next (sameEnd_finish_zero .arg 0#32)
  · rw [if_neg hmax, if_neg (show ¬ periodMax < (s.setBuf m).period.toNat from hmax)]
    exact answersAlike_buildFrame hwf hwf' .setper _ 0#32

theorem answersAlike_chk : AnswersAlike (execChk s) (execChk (s.setBuf m)) := by
  unfold execChk
  by_cases hok : s.chkComputed = s.chkReceived
  · rw [if_pos hok, if_pos (show (s.setBuf m).chkComputed = (s.setBuf m).chkReceived from hok)]
    exact answersAlike_next (sameEnd_finish_zero .ok _)
  · rw [if_neg hok, if_neg (show ¬ (s.setBuf m).chkComputed = (s.setBuf m).chkReceived from hok)]
    exact answersAlike_next (sameEnd_finish_zero .checksum _)

/-- A PARSE reads its wire bytes only (spec 42_frame_parser.md R84). -/
theorem answersAlike_parse (hwf : s.buf.wf) (hwf' : m.wf) {size : BitVec 8} (h : Memory.AgreeBelow (wireLength size) s.buf m) :
    AnswersAlike (execParse size s) (execParse size (s.setBuf m)) := by
  refine answersAlike_withLegalSize size fun hl => answersAlike_guardBuf _ _ ?_
  obtain ⟨heven, -⟩ := legalSize_iff.mp hl
  have hwire : wireLength size = 3 * groupCount size := by
    rw [wireLength, groupCount]
    omega
  have hlen : size.toNat ≤ (strippedData s.buf (groupCount size)).length := by
    rw [strippedData_length, groupCount]
    omega
  have hgroups : Memory.AgreeBelow (3 * groupCount size) s.buf m := hwire ▸ h
  unfold parseState
  rw [State.setBuf_cfg, State.setBuf_buf, hgroups.firstBad, hgroups.strippedData]
  split
  · exact sameEnd_finish_zero .checksum _
  · exact sameEnd_writeBytes hwf hwf' hlen .ok _

/-- A SAMPLE reads BUF[0..23] only (spec 43_float_decoder.md R98). -/
theorem answersAlike_sample (h : Memory.AgreeBelow 24 s.buf m) : AnswersAlike (execSample s) (execSample (s.setBuf m)) := by
  refine answersAlike_guardBuf _ _ ?_
  unfold sampleState
  rw [State.setBuf_cfg, State.setBuf_buf, Memory.AgreeBelow.firstBad (n := 8) h, h.channelBits (k := 0) (by decide),
    h.channelBits (k := 1) (by decide), h.channelBits (k := 2) (by decide), h.channelBits (k := 3) (by decide)]
  split
  · exact sameEnd_finish_zero .checksum _
  · exact sameEnd_finish_zero (s := s.setChannels _ _ _ _) .ok 0#32

/-- An operation reads no byte of BUF but PARSE's wire bytes and SAMPLE's 24 (spec 20_memory.md R37). -/
theorem answersAlike_exec (hwf : s.buf.wf) (hwf' : m.wf) (i : Instr)
    (hparse : ∀ size, i = .parse size → Memory.AgreeBelow (wireLength size) s.buf m)
    (hsample : i = .sample → Memory.AgreeBelow 24 s.buf m) : AnswersAlike (exec i s) (exec i (s.setBuf m)) := by
  cases i with
  | crc => exact answersAlike_next (sameEnd_finish_zero .ok _)
  | chk => exact answersAlike_chk
  | fdec => exact answersAlike_next (sameEnd_finish_zero .ok _)
  | buildStart => exact answersAlike_buildFrame hwf hwf' .start _ 0#32
  | buildStop => exact answersAlike_buildFrame hwf hwf' .stop [] 0#32
  | buildReset => exact answersAlike_buildFrame hwf hwf' .reset [] 0#32
  | buildRdrdy size => exact answersAlike_buildRead hwf hwf' .rdrdy size
  | buildRddata size => exact answersAlike_buildRead hwf hwf' .rddata size
  | buildRdser size => exact answersAlike_buildRead hwf hwf' .rdser size
  | buildClean => exact answersAlike_buildFrame hwf hwf' .clean [] 0#32
  | buildSetper => exact answersAlike_setper hwf hwf'
  | buildRdper size => exact answersAlike_buildRead hwf hwf' .rdper size
  | parse size => exact answersAlike_parse hwf hwf' (hparse size rfl)
  | sample => exact answersAlike_sample (hsample rfl)

end

/-- Settles O41: the two runs of the operation answer alike (`answersAlike_exec`). -/
theorem operationsReadOnlyTheirBytes : Obligations.OperationsReadOnlyTheirBytes := by
  unfold Obligations.OperationsReadOnlyTheirBytes
  intro i s t m hwf hwf' h hagree
  exact answersAlike_exec hwf hwf' i (fun size hi a ha => (hagree a).1 size hi ha) (fun hi a ha => (hagree a).2 hi ha) t h

end Sys2Proof.Machine
end

section
/-! The decode procedure of spec 30_encoding.md R51 in two halves: which fields its checks take, and what the taken fields are
dispatched to. Decoding is then the inverse of encoding. -/

namespace Sys2Proof.Machine

open Sys2Proof.Spec

/-- The OPC and CMD of the operations that take a SIZE (spec 30_encoding.md R49). -/
def takesSize (opc cmd : BitVec 4) : Bool := opc == 5#4 || opc == 4#4 && isReadCmd cmd

/-- What the checks of R51 ask of the fields beside a dispatched OPC and CMD: RSV is 0, CMD is 0 outside BUILD (R48), SIZE is legal
where it is taken and 0 elsewhere (R49). -/
structure FieldsTaken (bufBytes : Nat) (rsv : BitVec 16) (size : BitVec 8) (cmd opc : BitVec 4) : Prop where
  rsv_zero : rsv = 0#16
  cmd_zero : opc ≠ 4#4 → cmd = 0#4
  size_legal : takesSize opc cmd = true → legalSize bufBytes size = true
  size_zero : takesSize opc cmd = false → size = 0#8

/-- The OPCs of R47: reserved, of an operation that takes no SIZE, BUILD, PARSE. -/
theorem opc_cases (opc : BitVec 4) : (opc = 0#4 ∨ 6#4 < opc) ∨
    (opc = 1#4 ∨ opc = 2#4 ∨ opc = 3#4 ∨ opc = 6#4) ∨ opc = 4#4 ∨ opc = 5#4 := by
  revert opc
  decide

/-- The CMDs of R55: reserved, of a read command, of another command. -/
theorem cmd_cases (cmd : BitVec 4) : 8#4 < cmd ∨
    (cmd = 3#4 ∨ cmd = 4#4 ∨ cmd = 5#4 ∨ cmd = 8#4) ∨ (cmd = 0#4 ∨ cmd = 1#4 ∨ cmd = 2#4 ∨ cmd = 6#4 ∨ cmd = 7#4) := by
  revert cmd
  decide

theorem isReadCmd_iff {cmd : BitVec 4} : isReadCmd cmd = true ↔ cmd = 3#4 ∨ cmd = 4#4 ∨ cmd = 5#4 ∨ cmd = 8#4 := by
  revert cmd
  decide

theorem isReadCmd_eq_false {cmd : BitVec 4} (h : cmd = 0#4 ∨ cmd = 1#4 ∨ cmd = 2#4 ∨ cmd = 6#4 ∨ cmd = 7#4) :
    isReadCmd cmd = false := by
  revert cmd
  decide

theorem takesSize_iff {opc cmd : BitVec 4} : takesSize opc cmd = true ↔ opc = 5#4 ∨ opc = 4#4 ∧ isReadCmd cmd = true := by
  simp [takesSize]

theorem takesSize_eq_false {opc : BitVec 4} (h : opc = 1#4 ∨ opc = 2#4 ∨ opc = 3#4 ∨ opc = 6#4) (cmd : BitVec 4) :
    takesSize opc cmd = false := by
  revert opc cmd
  decide

section
variable {bufBytes : Nat} {rsv : BitVec 16} {size : BitVec 8} {cmd opc : BitVec 4} {i : Instr}

/-- A reserved OPC is dispatched to nothing (spec 30_encoding.md R47). -/
theorem dispatchOpc_of_reserved (h : opc = 0#4 ∨ 6#4 < opc) : dispatchOpc opc cmd size = .error .opcReserved := by
  unfold dispatchOpc
  split
  case h_7 => rfl
  all_goals bv_omega

/-- A reserved CMD builds nothing (spec 30_encoding.md R81). -/
theorem buildOfCmd_of_reserved (h : 8#4 < cmd) : buildOfCmd cmd size = .error .cmdReserved := by
  unfold buildOfCmd
  split
  case h_10 => rfl
  all_goals bv_omega

/-- Taken fields pass the checks; those of a reserved OPC or CMD refuse what the dispatch would refuse too. -/
theorem decodeFields_of_taken (h : FieldsTaken bufBytes rsv size cmd opc) :
    decodeFields bufBytes rsv size cmd opc = dispatchOpc opc cmd size := by
  obtain ⟨rfl, hcmd, hlegal, hzero⟩ := h
  unfold decodeFields
  split_ifs with hrsv hopc hcmd' hsize hres hread hother hparse
  · exact absurd rfl hrsv
  · exact (dispatchOpc_of_reserved hopc).symm
  · exact absurd (hcmd hcmd'.1) hcmd'.2
  · obtain ⟨hopc', hsize⟩ := hsize
    exact absurd (hzero (takesSize_eq_false hopc' cmd)) hsize
  · obtain ⟨rfl, hres⟩ := hres
    exact (buildOfCmd_of_reserved hres).symm
  · obtain ⟨rfl, hread, hillegal⟩ := hread
    exact absurd (hlegal hread) (Bool.eq_false_iff.mp hillegal)
  · obtain ⟨rfl, hread, hsize⟩ := hother
    exact absurd (hzero hread) hsize
  · obtain ⟨rfl, hillegal⟩ := hparse
    exact absurd (hlegal rfl) (Bool.eq_false_iff.mp hillegal)
  · rfl

/-- The fields of a word whose operation takes no SIZE. -/
theorem fieldsTaken_of_sizeless (hcmd : opc ≠ 4#4 → cmd = 0#4) (h : takesSize opc cmd = false) :
    FieldsTaken bufBytes 0#16 0#8 cmd opc :=
  ⟨rfl, hcmd, fun ht => absurd ht (Bool.eq_false_iff.mp h), fun _ => rfl⟩

/-- The fields of a word whose operation takes the SIZE. -/
theorem fieldsTaken_of_sized (hcmd : opc ≠ 4#4 → cmd = 0#4) (h : takesSize opc cmd = true) (hlegal : legalSize bufBytes size = true) :
    FieldsTaken bufBytes 0#16 size cmd opc :=
  ⟨rfl, hcmd, fun _ => hlegal, fun hf => absurd h (Bool.eq_false_iff.mp hf)⟩

/-- A word packed from taken fields is dispatched. -/
theorem decode_packWord_of_taken (h : FieldsTaken bufBytes 0#16 size cmd opc) :
    decode bufBytes (packWord size cmd opc) = dispatchOpc opc cmd size :=
  (decode_packWord bufBytes size cmd opc).trans (decodeFields_of_taken h)

end

/-- Settles O1: each operation's word is packed from fields the checks take, and the dispatch answers the operation. -/
theorem decodeOfEncode : Obligations.DecodeOfEncode := by
  unfold Obligations.DecodeOfEncode
  intro bufBytes i hwf
  cases i with
  | crc | chk | fdec | sample => exact decode_packWord_of_taken (fieldsTaken_of_sizeless (fun _ => rfl) rfl)
  | buildStart | buildStop | buildReset | buildClean | buildSetper =>
    exact decode_packWord_of_taken (fieldsTaken_of_sizeless (fun hne => absurd rfl hne) rfl)
  | buildRdrdy size | buildRddata size | buildRdser size | buildRdper size =>
    exact decode_packWord_of_taken (fieldsTaken_of_sized (fun hne => absurd rfl hne) rfl hwf)
  | parse size => exact decode_packWord_of_taken (fieldsTaken_of_sized (fun _ => rfl) rfl hwf)

/-- Settles O5: the words are the encodings of operations that are well formed at BUF_BYTES = 48. -/
theorem concreteWordsDecode : Obligations.ConcreteWordsDecode := by
  unfold Obligations.ConcreteWordsDecode
  have h := decodeOfEncode 48
  exact ⟨h .crc rfl, h .chk rfl, h .fdec rfl, h .buildStart rfl, h .buildStop rfl, h .buildReset rfl, h (.buildRdrdy 2#8) rfl,
    h (.buildRddata 16#8) rfl, h (.buildRdser 32#8) rfl, h .buildClean rfl, h .buildSetper rfl, h (.buildRdper 4#8) rfl,
    h (.parse 4#8) rfl, h (.parse 16#8) rfl, h .sample rfl⟩

section
variable {bufBytes : Nat} {rsv : BitVec 16} {size : BitVec 8} {cmd opc : BitVec 4} {i : Instr}

/-- The dispatch refuses a reserved OPC and a reserved CMD of BUILD only. -/
theorem dispatchOpc_error {e : DecodeError} (h : dispatchOpc opc cmd size = .error e) :
    (opc = 0#4 ∨ 6#4 < opc) ∨ opc = 4#4 ∧ 8#4 < cmd := by
  rcases opc_cases opc with hres | (rfl | rfl | rfl | rfl) | rfl | rfl
  · exact .inl hres
  case inr.inr.inl =>
    rcases cmd_cases cmd with hres | (rfl | rfl | rfl | rfl) | (rfl | rfl | rfl | rfl | rfl)
    · exact .inr ⟨rfl, hres⟩
    all_goals exact absurd h nofun
  all_goals exact absurd h nofun

/-- What is dispatched has passed the checks, which leaves taken fields and the dispatch's answer. -/
theorem decodeFields_ok (h : decodeFields bufBytes rsv size cmd opc = .ok i) :
    FieldsTaken bufBytes rsv size cmd opc ∧ dispatchOpc opc cmd size = .ok i := by
  unfold decodeFields at h
  split_ifs at h with hrsv hopc hcmd hsize hres hread hother hparse
  refine ⟨⟨not_not.mp hrsv, fun hne => by_contra fun hc => hcmd ⟨hne, hc⟩, fun ht => ?_, fun ht => ?_⟩, h⟩
  · rcases takesSize_iff.mp ht with rfl | ⟨rfl, hr⟩
    · exact by_contra fun hl => hparse ⟨rfl, Bool.eq_false_of_not_eq_true hl⟩
    · exact by_contra fun hl => hread ⟨rfl, hr, Bool.eq_false_of_not_eq_true hl⟩
  · rcases opc_cases opc with hr | hm | rfl | rfl
    · exact absurd hr hopc
    · exact by_contra fun hne => hsize ⟨hm, hne⟩
    · exact by_contra fun hne => hother ⟨rfl, ht, hne⟩
    · exact absurd ht nofun

/-- The word and the size condition of an operation the dispatch answers to taken fields. -/
theorem encode_of_dispatchOpc (htaken : FieldsTaken bufBytes rsv size cmd opc) (h : dispatchOpc opc cmd size = .ok i) :
    encode i = packWord size cmd opc ∧ i.wellFormed bufBytes = true := by
  obtain ⟨-, hcmd, hlegal, hzero⟩ := htaken
  rcases opc_cases opc with hres | hopc | rfl | rfl
  · rw [dispatchOpc_of_reserved hres] at h
    exact absurd h nofun
  · obtain rfl := hzero (takesSize_eq_false hopc cmd)
    rcases hopc with rfl | rfl | rfl | rfl
    all_goals
      obtain rfl := hcmd (by decide)
      obtain rfl := Except.ok.inj h
      exact ⟨rfl, rfl⟩
  · rcases cmd_cases cmd with hres | hread | hother
    · exact absurd ((buildOfCmd_of_reserved hres).symm.trans h) nofun
    · have hl := hlegal (isReadCmd_iff.mpr hread)
      rcases hread with rfl | rfl | rfl | rfl
      all_goals
        obtain rfl := Except.ok.inj h
        exact ⟨rfl, hl⟩
    · obtain rfl := hzero (isReadCmd_eq_false hother)
      rcases hother with rfl | rfl | rfl | rfl | rfl
      all_goals
        obtain rfl := Except.ok.inj h
        exact ⟨rfl, rfl⟩
  · obtain rfl := hcmd (by decide)
    obtain rfl := Except.ok.inj h
    exact ⟨rfl, hlegal rfl⟩

end

/-- Settles O2: the word is its fields packed, RSV being 0, and the operation's encoding packs the same fields. -/
theorem dispatchedWordIsItsEncoding : Obligations.DispatchedWordIsItsEncoding := by
  unfold Obligations.DispatchedWordIsItsEncoding
  intro bufBytes w i h
  obtain ⟨htaken, hdispatch⟩ := decodeFields_ok h
  obtain ⟨hencode, hwf⟩ := encode_of_dispatchOpc htaken hdispatch
  exact ⟨hencode.trans (packWord_fields htaken.rsv_zero), hwf⟩

/-- The size check refuses exactly an odd size and one above SIZE_MAX (spec 30_encoding.md R49). -/
theorem legalSize_eq_false_iff {bufBytes : Nat} {size : BitVec 8} :
    legalSize bufBytes size = false ↔ size.toNat % 2 = 1 ∨ sizeMax bufBytes < size.toNat := by
  refine ⟨fun h => ?_, legalSize_eq_false⟩
  by_contra hne
  have hmax := sizeMax_fits bufBytes
  exact absurd (legalSize_iff.mpr (by omega)) (Bool.eq_false_iff.mp h)

/-- The bullets of spec 30_encoding.md R61, in its order, of the four fields. -/
def IllegalCause (bufBytes : Nat) (rsv : BitVec 16) (size : BitVec 8) (cmd opc : BitVec 4) : Prop :=
  (opc = 0#4 ∨ 7 ≤ opc.toNat) ∨
  rsv ≠ 0#16 ∨
  (cmd ≠ 0#4 ∧ opc ≠ 4#4) ∨
  (opc = 4#4 ∧ 9 ≤ cmd.toNat) ∨
  (size ≠ 0#8 ∧ (opc ∈ [1#4, 2#4, 3#4, 6#4] ∨ opc = 4#4 ∧ cmd ∈ [0#4, 1#4, 2#4, 6#4, 7#4])) ∨
  ((opc = 5#4 ∨ opc = 4#4 ∧ cmd ∈ [3#4, 4#4, 5#4, 8#4]) ∧ (size.toNat % 2 = 1 ∨ sizeMax bufBytes < size.toNat))

section
variable {bufBytes : Nat} {rsv : BitVec 16} {size : BitVec 8} {cmd opc : BitVec 4}

/-- Each check of R51, and each refusal of the dispatch, is a bullet of R61. -/
theorem illegalCause_of_error {e : DecodeError} (h : decodeFields bufBytes rsv size cmd opc = .error e) :
    IllegalCause bufBytes rsv size cmd opc := by
  unfold decodeFields at h
  unfold IllegalCause
  split_ifs at h with hrsv hopc hcmd hsize hres hread hother hparse
  · exact .inr (.inl hrsv)
  · exact .inl hopc
  · exact .inr (.inr (.inl hcmd.symm))
  · exact .inr (.inr (.inr (.inr (.inl ⟨hsize.2, .inl (by simpa using hsize.1)⟩))))
  · exact .inr (.inr (.inr (.inl hres)))
  · obtain ⟨hbuild, hr, hbad⟩ := hread
    have hmem : cmd ∈ [3#4, 4#4, 5#4, 8#4] := by simpa using isReadCmd_iff.mp hr
    exact .inr (.inr (.inr (.inr (.inr ⟨.inr ⟨hbuild, hmem⟩, legalSize_eq_false_iff.mp hbad⟩))))
  · obtain ⟨hbuild, hr, hne⟩ := hother
    have hmem : cmd ∈ [0#4, 1#4, 2#4, 6#4, 7#4] := by
      rcases cmd_cases cmd with hc | hc | hc
      · exact absurd ⟨hbuild, hc⟩ hres
      · exact absurd (isReadCmd_iff.mpr hc) (Bool.eq_false_iff.mp hr)
      · simpa using hc
    exact .inr (.inr (.inr (.inr (.inl ⟨hne, .inr ⟨hbuild, hmem⟩⟩))))
  · exact .inr (.inr (.inr (.inr (.inr ⟨.inl hparse.1, legalSize_eq_false_iff.mp hparse.2⟩))))
  · exact (dispatchOpc_error h).elim .inl fun hbuild => .inr (.inr (.inr (.inl hbuild)))

/-- Fields that are taken and dispatched meet no bullet of R61. -/
theorem not_illegalCause_of_dispatched {i : Instr} (htaken : FieldsTaken bufBytes rsv size cmd opc)
    (h : dispatchOpc opc cmd size = .ok i) : ¬ IllegalCause bufBytes rsv size cmd opc := by
  obtain ⟨hrsv, hcmd, hlegal, hzero⟩ := htaken
  rintro (hopc | hne | ⟨hne, hopc⟩ | ⟨rfl, hres⟩ | ⟨hne, hopc⟩ | ⟨hopc, hbad⟩)
  · exact absurd ((dispatchOpc_of_reserved hopc).symm.trans h) nofun
  · exact hne hrsv
  · exact hne (hcmd hopc)
  · exact absurd ((buildOfCmd_of_reserved hres).symm.trans h) nofun
  · refine hne (hzero ?_)
    rcases hopc with hopc | ⟨rfl, hother⟩
    · exact takesSize_eq_false (by simpa using hopc) cmd
    · exact isReadCmd_eq_false (by simpa using hother)
  · have htakes : takesSize opc cmd = true :=
      takesSize_iff.mpr (hopc.imp_right (And.imp_right fun hread => isReadCmd_iff.mpr (by simpa using hread)))
    exact Bool.eq_false_iff.mp (legalSize_eq_false_iff.mpr hbad) (hlegal htakes)

end

/-- The illegal words are those of R61. -/
theorem illegal_iff (bufBytes : Nat) (w : Word) :
    Illegal bufBytes w ↔ IllegalCause bufBytes (fieldRsv w) (fieldSize w) (fieldCmd w) (fieldOpc w) := by
  refine ⟨fun ⟨_, h⟩ => illegalCause_of_error h, fun hcause => ?_⟩
  cases hd : decode bufBytes w with
  | error e => exact ⟨e, hd⟩
  | ok i =>
    obtain ⟨htaken, h⟩ := decodeFields_ok hd
    exact absurd hcause (not_illegalCause_of_dispatched htaken h)

/-- Settles O3: the causes are `illegal_iff`, and the write of such a word raises ILLEGAL on the state in which OP holds it. -/
theorem illegalWordsEndIllegal : Obligations.IllegalWordsEndIllegal := by
  unfold Obligations.IllegalWordsEndIllegal
  refine ⟨illegal_iff, fun bufBytes => ⟨.opcReserved, rfl⟩, ?_⟩
  rintro s w rest hp ⟨e, he⟩
  have hstep : step s = .next (((s.setPending rest).setOp w).finish .illegal 0#8 0#32) :=
    (step_of_aligned_write hp rfl).trans (startOperation_of_error (s := s.setPending rest) he)
  exact ⟨_, hstep, rfl, ends_finish _ .illegal 0#8 0#32, fun _ => rfl, ⟨rfl, rfl, rfl, rfl⟩, rfl, rfl, rfl, rfl⟩

end Sys2Proof.Machine
end

section
/-! The frames: every payload group of a frame carries its checksum, in the list of bytes and in BUF. -/

namespace Sys2Proof.Machine

open Sys2Proof.Spec

/-- Byte `j` of payload group `g` (spec 30_encoding.md R52). -/
theorem getElem?_flatMap_groupBytes (crcInit : Byte) (payload : List Half) {g j : Nat} (hg : g < payload.length) (hj : j < 3) :
    (payload.flatMap (groupBytes crcInit))[3 * g + j]? = (groupBytes crcInit payload[g])[j]? := by
  induction payload generalizing g with
  | nil => exact absurd hg (Nat.not_lt_zero g)
  | cons w ws ih =>
    have hlen : (groupBytes crcInit w).length = 3 := rfl
    rw [List.flatMap_cons]
    cases g with
    | zero => rw [Nat.mul_zero, Nat.zero_add, List.getElem?_append_left (by omega), List.getElem_cons_zero]
    | succ g =>
      have hskip : 3 * (g + 1) + j - 3 = 3 * g + j := by omega
      rw [List.getElem?_append_right (by omega), hlen, hskip]
      exact ih (Nat.lt_of_succ_lt_succ hg)

/-- Byte `j` of payload group `g` in BUF after a BUILD: the groups follow the code's two bytes. -/
theorem readByte_builtState_group (k : Command) {payload : List Half} (res : Word) {s : State} (hwf : s.buf.wf) {g j : Nat}
    (hg : g < payload.length) (hj : j < 3) :
    (builtState k payload res s).buf.readByte (2 + 3 * g + j) = (groupBytes s.cfg.crcInit payload[g])[j]'hj := by
  have hframe : (frameBytes s.cfg k payload)[2 + 3 * g + j]? = some ((groupBytes s.cfg.crcInit payload[g])[j]'hj) := by
    rw [Nat.add_assoc, Nat.add_comm 2]
    exact (getElem?_flatMap_groupBytes s.cfg.crcInit payload hg hj).trans (List.getElem?_eq_getElem hj)
  rw [builtState, State.finish_buf, State.setBuf_buf, Memory.readByte_writeBytes hwf, if_pos (Nat.zero_le _), Nat.sub_zero, hframe,
    Option.getD_some]

/-- The BUILD operations (spec 30_encoding.md R55). -/
abbrev buildInstrs (size : BitVec 8) : List Instr :=
  [.buildStart, .buildStop, .buildReset, .buildRdrdy size, .buildRddata size, .buildRdser size, .buildClean, .buildSetper,
    .buildRdper size]

/-- The state is the end of a BUILD of some frame; no command has more than two payload words (spec 30_encoding.md R56, R57). -/
def IsBuilt (s t : State) : Prop := ∃ k payload res, payload.length ≤ 2 ∧ t = builtState k payload res s

theorem isBuilt_of_buildFrame {k : Command} {payload : List Half} {res : Word} {s t : State} (hp : payload.length ≤ 2)
    (h : buildFrame k payload res s = .next t) : IsBuilt s t :=
  ⟨k, payload, res, hp, (buildFrame_next h).2⟩

theorem isBuilt_of_buildRead {k : Command} {size : BitVec 8} {s t : State} (h : buildRead k size s = .next t)
    (hok : t.errField = 0#4) : IsBuilt s t := by
  rcases buildRead_next h with ⟨-, -, rfl⟩ | ⟨-, rfl⟩
  · exact ⟨k, [], _, Nat.zero_le 2, rfl⟩
  · exact absurd hok (errField_finish_ne_zero nofun)

theorem isBuilt_of_setper {s t : State} (h : execBuildSetper s = .next t) (hok : t.errField = 0#4) : IsBuilt s t := by
  rcases setper_next h with ⟨-, rfl⟩ | ⟨-, -, rfl⟩
  · exact absurd hok (errField_finish_ne_zero nofun)
  · exact ⟨.setper, [s.periodHigh, s.periodLow], 0#32, Nat.le_refl 2, rfl⟩

/-- Every BUILD that ends OK has built a frame. -/
theorem isBuilt_of_ok {size : BitVec 8} {i : Instr} {s t : State} (hi : i ∈ buildInstrs size) (h : exec i s = .next t)
    (hok : t.errField = 0#4) : IsBuilt s t := by
  simp only [List.mem_cons, List.not_mem_nil, or_false] at hi
  rcases hi with rfl | rfl | rfl | rfl | rfl | rfl | rfl | rfl | rfl
  · exact isBuilt_of_buildFrame (by simp) h
  · exact isBuilt_of_buildFrame (by simp) h
  · exact isBuilt_of_buildFrame (by simp) h
  · exact isBuilt_of_buildRead h hok
  · exact isBuilt_of_buildRead h hok
  · exact isBuilt_of_buildRead h hok
  · exact isBuilt_of_buildFrame (by simp) h
  · exact isBuilt_of_setper h hok
  · exact isBuilt_of_buildRead h hok

/-- Settles O24: LEN is the length of a frame of `n` payload words, and each group in BUF is `groupBytes` of its word. -/
theorem builtFramesCarryTheirChecksums : Obligations.BuiltFramesCarryTheirChecksums := by
  unfold Obligations.BuiltFramesCarryTheirChecksums
  intro size i s t hi hwf h hok
  obtain ⟨k, payload, res, hp, rfl⟩ := isBuilt_of_ok hi h hok
  refine ⟨payload.length, lenField_builtState hp, fun g hg => ?_⟩
  have hfirst := readByte_builtState_group k res hwf hg (j := 0) (by decide)
  have hsecond := readByte_builtState_group k res hwf hg (j := 1) (by decide)
  have hchecksum := readByte_builtState_group k res hwf hg (j := 2) (by decide)
  rw [Nat.add_zero] at hfirst
  rw [hfirst, hsecond, hchecksum]
  rfl

end Sys2Proof.Machine
end

section
/-! ARG: what an operation does not read of it, it does not depend on. -/

namespace Sys2Proof.Machine

/-- The outcome with `v` in ARG. -/
def outcomeWithArg (v : Word) : Outcome → Outcome
  | .next t => .next (t.setArg v)
  | .fault r => .fault r
  | .refused r => .refused r

section
variable (v : Word) (s : State)

theorem guardBuf_setArg (a n : Nat) (t : State) :
    guardBuf (s.setArg v) a n (t.setArg v) = outcomeWithArg v (guardBuf s a n t) := by
  unfold guardBuf
  rw [State.setArg_cfg]
  split <;> rfl

theorem withLegalSize_setArg (size : BitVec 8) (o : Outcome) :
    withLegalSize (s.setArg v) size (outcomeWithArg v o) = outcomeWithArg v (withLegalSize s size o) := by
  unfold withLegalSize
  rw [State.setArg_cfg]
  split <;> rfl

theorem buildFrame_setArg (k : Command) (payload : List Half) (res : Word) :
    buildFrame k payload res (s.setArg v) = outcomeWithArg v (buildFrame k payload res s) :=
  guardBuf_setArg v s 0 _ ((s.setBuf _).finish .ok _ res)

theorem buildRead_setArg (k : Command) (size : BitVec 8) :
    buildRead k size (s.setArg v) = outcomeWithArg v (buildRead k size s) := by
  rw [buildRead, buildFrame_setArg]
  exact withLegalSize_setArg v s size _

theorem parseState_setArg (size : BitVec 8) : parseState size (s.setArg v) = (parseState size s).setArg v := by
  unfold parseState
  rw [State.setArg_cfg, State.setArg_buf]
  split <;> rfl

theorem sampleState_setArg : sampleState (s.setArg v) = (sampleState s).setArg v := by
  unfold sampleState
  rw [State.setArg_cfg, State.setArg_buf]
  split <;> rfl

theorem execParse_setArg (size : BitVec 8) : execParse size (s.setArg v) = outcomeWithArg v (execParse size s) := by
  rw [execParse, parseState_setArg, guardBuf_setArg, withLegalSize_setArg]
  rfl

theorem execSample_setArg : execSample (s.setArg v) = outcomeWithArg v (execSample s) := by
  rw [execSample, sampleState_setArg]
  exact guardBuf_setArg v s 0 24 _

/-- Words that agree below bit `n` agree on every field below it. -/
theorem extractLsb'_eq_of_low {x y : Word} {n a len : Nat} (h : x.extractLsb' 0 n = y.extractLsb' 0 n) (hfit : a + len ≤ n) :
    x.extractLsb' a len = y.extractLsb' a len := by
  ext j hj
  have hlt : a + j < n := by omega
  have hbit : (x.extractLsb' 0 n).getLsbD (a + j) = (y.extractLsb' 0 n).getLsbD (a + j) := by rw [h]
  simpa [hlt] using hbit

theorem execCrc_setArg (h : v.extractLsb' 0 16 = s.arg.extractLsb' 0 16) :
    execCrc (s.setArg v) = outcomeWithArg v (execCrc s) := by
  have h0 : (s.setArg v).crcByte0 = s.crcByte0 := extractLsb'_eq_of_low h (by decide)
  have h1 : (s.setArg v).crcByte1 = s.crcByte1 := extractLsb'_eq_of_low h (by decide)
  rw [execCrc, h0, h1]
  rfl

theorem execChk_setArg (h : v.extractLsb' 0 24 = s.arg.extractLsb' 0 24) :
    execChk (s.setArg v) = outcomeWithArg v (execChk s) := by
  have h0 : (s.setArg v).chkByte0 = s.chkByte0 := extractLsb'_eq_of_low h (by decide)
  have h1 : (s.setArg v).chkByte1 = s.chkByte1 := extractLsb'_eq_of_low h (by decide)
  have hreceived : (s.setArg v).chkReceived = s.chkReceived := extractLsb'_eq_of_low h (by decide)
  have hcomputed : (s.setArg v).chkComputed = s.chkComputed := by
    rw [State.chkComputed, h0, h1]
    rfl
  unfold execChk
  rw [hcomputed, hreceived]
  split <;> rfl

/-- An operation reads nothing of ARG but CRC's and CHK's low bits, FDEC's float and SETPER's period (spec 30_encoding.md R60). -/
theorem exec_setArg (i : Instr) (hcrc : i = .crc → v.extractLsb' 0 16 = s.arg.extractLsb' 0 16)
    (hchk : i = .chk → v.extractLsb' 0 24 = s.arg.extractLsb' 0 24) (hfdec : i ≠ .fdec) (hsetper : i ≠ .buildSetper) :
    exec i (s.setArg v) = outcomeWithArg v (exec i s) := by
  cases i with
  | crc => exact execCrc_setArg v s (hcrc rfl)
  | chk => exact execChk_setArg v s (hchk rfl)
  | fdec => exact absurd rfl hfdec
  | buildSetper => exact absurd rfl hsetper
  | buildStart => exact buildFrame_setArg v s .start _ 0#32
  | buildStop => exact buildFrame_setArg v s .stop [] 0#32
  | buildReset => exact buildFrame_setArg v s .reset [] 0#32
  | buildClean => exact buildFrame_setArg v s .clean [] 0#32
  | buildRdrdy size => exact buildRead_setArg v s .rdrdy size
  | buildRddata size => exact buildRead_setArg v s .rddata size
  | buildRdser size => exact buildRead_setArg v s .rdser size
  | buildRdper size => exact buildRead_setArg v s .rdper size
  | parse size => exact execParse_setArg v s size
  | sample => exact execSample_setArg v s

end

/-- Settles O43: the state with `v` in ARG is `setArg`, and the operation commutes with it (`exec_setArg`). -/
theorem unreadArgBitsAreIgnored : Obligations.UnreadArgBitsAreIgnored := by
  unfold Obligations.UnreadArgBitsAreIgnored
  intro i s t v h hcrc hchk hfdec hsetper
  calc exec i (s.setArg v) = outcomeWithArg v (exec i s) := exec_setArg v s i hcrc hchk hfdec hsetper
    _ = .next (t.setArg v) := by rw [h]; rfl

end Sys2Proof.Machine
end

section
/-! CRC and CHK: each has one word, each ends with a computed checksum in RESULT, and neither writes anything else. -/

namespace Sys2Proof.Machine

open Sys2Proof.Spec

/-- An operation that its OPC alone is dispatched to has one word: every other word of that OPC is illegal (spec 30_encoding.md R48, R49). -/
theorem illegal_of_ne_encode {bufBytes : Nat} {opc : BitVec 4} {i : Instr} (hopc : ∀ cmd size, dispatchOpc opc cmd size = .ok i)
    {w : Word} (hw : fieldOpc w = opc) (hne : w ≠ encode i) : Illegal bufBytes w := by
  cases hd : decode bufBytes w with
  | error e => exact ⟨e, hd⟩
  | ok j =>
    obtain ⟨-, hj⟩ := decodeFields_ok hd
    obtain rfl : i = j := Except.ok.inj ((hopc _ _).symm.trans (hw ▸ hj))
    exact absurd (dispatchedWordIsItsEncoding bufBytes w i hd).1.symm hne

/-- An end with LEN = 0 and one byte in RESULT, as the host reads it. -/
theorem ends_finish_byte (s : State) (e : ErrCode) (c : Byte) :
    Ends (s.finish e 0#8 (c.setWidth 32)) e.code.toNat 0 c.toNat := by
  have hc : (c.setWidth 32).toNat = c.toNat := BitVec.toNat_setWidth_of_le (by decide)
  exact hc ▸ ends_finish s e 0#8 (c.setWidth 32)

/-- CHK's outcome code (spec 40_checksum.md R68): whether the received byte is the computed checksum. -/
def chkErr (s : State) : ErrCode := if s.chkComputed = s.chkReceived then .ok else .checksum

/-- CHK's two ends differ in the code only: RESULT is the computed checksum in both. -/
theorem exec_chk (s : State) : exec .chk s = .next (s.finish (chkErr s) 0#8 (s.chkComputed.setWidth 32)) := by
  show execChk s = _
  unfold execChk chkErr
  split <;> rfl

/-- Settles O16: the word is CRC's encoding, and CRC is one `finish`. -/
theorem crcWritesChecksumOfArg : Obligations.CrcWritesChecksumOfArg := by
  unfold Obligations.CrcWritesChecksumOfArg
  intro s
  exact ⟨decodeOfEncode _ .crc rfl, fun w => illegal_of_ne_encode (i := .crc) fun _ _ => rfl, _, rfl, ends_finish_byte s .ok _,
    sameBuf_finish _ _ _ _, sameChannels_finish _ _ _ _, untouched_finish _ _ _ _⟩

/-- Settles O17: the word is CHK's encoding, and CHK is one `finish` whose code says whether the checksums agree. -/
theorem chkValidatesGroupInArg : Obligations.ChkValidatesGroupInArg := by
  unfold Obligations.ChkValidatesGroupInArg
  intro s
  have hends := ends_finish_byte s (chkErr s) s.chkComputed
  refine ⟨decodeOfEncode _ .chk rfl, fun w => illegal_of_ne_encode (i := .chk) fun _ _ => rfl, _, exec_chk s, ?_, ?_,
    sameBuf_finish _ _ _ _, sameChannels_finish _ _ _ _, untouched_finish _ _ _ _⟩
  · intro hequal
    have hok : chkErr s = .ok := if_pos hequal
    rw [hok] at hends ⊢
    exact hequal ▸ hends
  · intro hdiffer
    have hbad : chkErr s = .checksum := if_neg hdiffer
    rw [hbad] at hends ⊢
    exact hends

end Sys2Proof.Machine
end

section
/-! crc8 over GF(2): each turn of the loop of R65 is linear, so crc8 is linear in CRC_INIT and the two bytes together, and adding a
pattern to a word adds the pattern's own checksum (spec 40_checksum.md R69). -/

namespace Sys2Proof.Machine

open Sys2Proof.Spec

/-- A turn of the loop as a sum: the shifted byte, and the polynomial when the top bit was set. -/
theorem crcStep_eq_xor (c : Byte) : crcStep c = c <<< 1 ^^^ (if c.msb then crcPoly else 0#8) := by
  unfold crcStep
  split
  · rfl
  · exact BitVec.xor_zero.symm

theorem crcStep_xor (c d : Byte) : crcStep (c ^^^ d) = crcStep c ^^^ crcStep d := by
  have hpoly : ∀ p q : Bool, (if p ^^ q then crcPoly else 0#8) = (if p then crcPoly else 0#8) ^^^ (if q then crcPoly else 0#8) := by
    decide
  rw [crcStep_eq_xor, crcStep_eq_xor, crcStep_eq_xor, BitVec.msb_xor, hpoly, BitVec.shiftLeft_xor_distrib]
  ac_rfl

theorem crcSteps_xor (n : Nat) (c d : Byte) : crcSteps n (c ^^^ d) = crcSteps n c ^^^ crcSteps n d := by
  induction n generalizing c d with
  | zero => rfl
  | succ n ih => rw [crcSteps, crcStep_xor, ih]; rfl

theorem crcByte_xor (c d a b : Byte) : crcByte (c ^^^ d) (a ^^^ b) = crcByte c a ^^^ crcByte d b := by
  have hswap : c ^^^ d ^^^ (a ^^^ b) = (c ^^^ a) ^^^ (d ^^^ b) := by ac_rfl
  rw [crcByte, hswap, crcSteps_xor]
  rfl

/-- crc8 is linear in CRC_INIT and the two bytes. -/
theorem crc8_xor (c d a0 a1 b0 b1 : Byte) : crc8 (c ^^^ d) (a0 ^^^ b0) (a1 ^^^ b1) = crc8 c a0 a1 ^^^ crc8 d b0 b1 := by
  rw [crc8, crcByte_xor, crcByte_xor]
  rfl

/-- crc8 is affine in the two bytes: a pattern adds its checksum from CRC_INIT = 0. -/
theorem crc8_affine (c a0 a1 e0 e1 : Byte) : crc8 c (a0 ^^^ e0) (a1 ^^^ e1) = crc8 c a0 a1 ^^^ crc8 0#8 e0 e1 := by
  simpa only [BitVec.xor_zero] using crc8_xor c 0#8 a0 a1 e0 e1

/-- A pattern in the first byte alone. -/
theorem crc8_xor_first (c a0 a1 e : Byte) : crc8 c (a0 ^^^ e) a1 = crc8 c a0 a1 ^^^ crc8 0#8 e 0#8 := by
  simpa only [BitVec.xor_zero] using crc8_affine c a0 a1 e 0#8

/-- A pattern in the second byte alone. -/
theorem crc8_xor_second (c a0 a1 e : Byte) : crc8 c a0 (a1 ^^^ e) = crc8 c a0 a1 ^^^ crc8 0#8 0#8 e := by
  simpa only [BitVec.xor_zero] using crc8_affine c a0 a1 0#8 e

theorem wordCrc_xor (c : Byte) (d e : Half) : wordCrc c (d ^^^ e) = wordCrc c d ^^^ wordCrc 0x00#8 e := by
  rw [wordCrc, BitVec.extractLsb'_xor, BitVec.extractLsb'_xor, crc8_affine]
  rfl

/-- Adding a pattern that is not zero changes a byte. -/
theorem xor_ne_self {e : Byte} (he : e ≠ 0#8) (b : Byte) : b ^^^ e ≠ b :=
  fun h => he ((BitVec.xor_right_inj b).mp (h.trans BitVec.xor_zero.symm))

/-- The table of R69: the checksums from CRC_INIT = 0 of the sixteen one-bit words, none of them 0. -/
theorem wordCrc_zero_oneBit : ∀ (k : Nat) (h : k < 16),
    wordCrc 0x00#8 (1#16 <<< k) =
      BitVec.ofNat 8 ([0x31, 0x62, 0xC4, 0xB9, 0x43, 0x86, 0x3D, 0x7A, 0xF4, 0xD9, 0x83, 0x37, 0x6E, 0xDC, 0x89, 0x23][k]'h) ∧
    wordCrc 0x00#8 (1#16 <<< k) ≠ 0#8 := by
  decide +kernel

/-- Settles O19: `wordCrc_xor`, and the checksum added by a one-bit word is its entry of the table. -/
theorem singleBitFlipChangesChecksum : Obligations.SingleBitFlipChangesChecksum := by
  unfold Obligations.SingleBitFlipChangesChecksum
  refine ⟨wordCrc_xor, fun k h crcInit d => ?_⟩
  obtain ⟨hentry, hne⟩ := wordCrc_zero_oneBit k h
  rw [wordCrc_xor]
  exact ⟨congrArg _ hentry, xor_ne_self hne _⟩

end Sys2Proof.Machine
end

section
/-! A response with one flipped bit: its group fails, every other group is as valid as before, so PARSE and SAMPLE name that group. -/

namespace Sys2Proof.Machine

open Sys2Proof.Spec

/-- The first invalid group is the failing group the operations find (spec 42_frame_parser.md R86). -/
theorem firstBad_of_firstInvalid {s : State} {n g : Nat} (h : FirstInvalid s n g) : firstBad s.cfg.crcInit s.buf n = some g := by
  obtain ⟨hg, hbad, hbefore⟩ := h
  exact firstBad_eq_some.mpr ⟨hg, Bool.eq_false_iff.mpr fun hok => hbad (groupOk_iff.mp hok), fun j hj => groupOk_iff.mpr (hbefore j hj)⟩

/-- PARSE of a legal size rejects a response at its first invalid group (spec 42_frame_parser.md R84). -/
theorem exec_parse_of_firstInvalid {s : State} {size : BitVec 8} {g : Nat} (hsize : SizeLegal s.cfg.bufBytes size)
    (h : FirstInvalid s (size.toNat / 2) g) : exec (.parse size) s = .next (s.finish .checksum 0#8 (BitVec.ofNat 32 g)) := by
  have hbad : firstBad s.cfg.crcInit s.buf (groupCount size) = some g := firstBad_of_firstInvalid h
  have hend : parseState size s = s.finish .checksum 0#8 (BitVec.ofNat 32 g) := by rw [parseState, hbad]; rfl
  exact (execParse_of_legal (legalSize_iff.mpr hsize)).trans (congrArg _ hend)

/-- SAMPLE rejects a response at its first invalid group (spec 43_float_decoder.md R98). -/
theorem exec_sample_of_firstInvalid {s : State} {g : Nat} (hwf : s.cfg.wf) (h : FirstInvalid s 8 g) :
    exec .sample s = .next (s.finish .checksum 0#8 (BitVec.ofNat 32 g)) := by
  have hend : sampleState s = s.finish .checksum 0#8 (BitVec.ofNat 32 g) := by rw [sampleState, firstBad_of_firstInvalid h]; rfl
  exact (execSample_of_wf hwf).trans (congrArg _ hend)

/-- The end of a PARSE or SAMPLE that rejects, as the host reads it: a data size has 8 bits, so a group's index fits RESULT. -/
theorem ends_finish_group (s : State) {g : Nat} (hg : g < 256) :
    Ends (s.finish .checksum 0#8 (BitVec.ofNat 32 g)) 1 0 g :=
  ⟨statusWord_toNat .checksum 0#8, Nat.mod_eq_of_lt (by omega)⟩

/-- BUF of `s'` is BUF of `s` with bit `k` of byte `x` flipped, on a block with the same parameters. -/
structure DiffersInBit (s s' : State) (x k : Nat) : Prop where
  cfg : s'.cfg = s.cfg
  bit_lt : k < 8
  flipped : s'.buf.readByte x = s.buf.readByte x ^^^ (1#8 <<< k)
  others : ∀ a, a ≠ x → s'.buf.readByte a = s.buf.readByte a

/-- One bit set in either byte of a word, or in the checksum byte, is no pattern that adds 0. -/
theorem oneBit_ne_zero : ∀ k < 8, crc8 0#8 (1#8 <<< k) 0#8 ≠ 0#8 ∧ crc8 0#8 0#8 (1#8 <<< k) ≠ 0#8 ∧ 1#8 <<< k ≠ 0#8 := by
  decide +kernel

section
variable {s s' : State} {x k : Nat}

/-- The flipped bit's group fails, by the byte of the group the bit is in: a data bit changes the computed checksum,
a checksum bit the received one. -/
theorem DiffersInBit.not_groupValid (h : DiffersInBit s s' x k) {g : Nat} (hg : x / 3 = g) (hvalid : GroupValid s g) :
    ¬ GroupValid s' g := by
  have hcrc : crc8 s.cfg.crcInit (s.buf.readByte (3 * g)) (s.buf.readByte (3 * g + 1)) = s.buf.readByte (3 * g + 2) := hvalid
  obtain ⟨hfirst, hsecond, hreceived⟩ := oneBit_ne_zero k h.bit_lt
  have hbyte : x = 3 * g ∨ x = 3 * g + 1 ∨ x = 3 * g + 2 := by omega
  rw [GroupValid, h.cfg]
  rcases hbyte with rfl | rfl | rfl
  · rw [h.flipped, h.others (3 * g + 1) (by omega), h.others (3 * g + 2) (by omega), ← hcrc, crc8_xor_first]
    exact xor_ne_self hfirst _
  · rw [h.flipped, h.others (3 * g) (by omega), h.others (3 * g + 2) (by omega), ← hcrc, crc8_xor_second]
    exact xor_ne_self hsecond _
  · rw [h.flipped, h.others (3 * g) (by omega), h.others (3 * g + 1) (by omega), hcrc]
    exact (xor_ne_self hreceived _).symm

/-- Every other group is as valid as before. -/
theorem DiffersInBit.groupValid (h : DiffersInBit s s' x k) {g : Nat} (hg : x / 3 ≠ g) (hvalid : GroupValid s g) :
    GroupValid s' g := by
  rw [GroupValid, h.cfg, h.others (3 * g) (by omega), h.others (3 * g + 1) (by omega), h.others (3 * g + 2) (by omega)]
  exact hvalid

/-- The flipped bit's group is the first invalid one of a response that was valid. -/
theorem DiffersInBit.firstInvalid (h : DiffersInBit s s' x k) {n : Nat} (hvalid : GroupsValid s n) (hx : x / 3 < n) :
    FirstInvalid s' n (x / 3) :=
  ⟨hx, h.not_groupValid rfl (hvalid _ hx), fun g hg => h.groupValid (by omega) (hvalid g (by omega))⟩

end

/-- Settles O28: the flipped bit's group is the first invalid one, and both operations end CHECKSUM with it, by `finish` alone. -/
theorem singleBitCorruptionIsRejected : Obligations.SingleBitCorruptionIsRejected := by
  unfold Obligations.SingleBitCorruptionIsRejected
  intro s s' x k hcfg hk hflip hothers
  have hdiffers : DiffersInBit s s' x k := ⟨hcfg, hk, hflip, hothers⟩
  constructor
  · intro size hsize hvalid hx
    have hbound := size.isLt
    have hfirst := hdiffers.firstInvalid hvalid (by have := hsize.1; omega)
    exact ⟨_, exec_parse_of_firstInvalid (hcfg ▸ hsize) hfirst, ends_finish_group s' (by omega), sameChannels_finish _ _ _ _,
      sameBuf_finish _ _ _ _⟩
  · intro hwf hvalid hx
    have hfirst := hdiffers.firstInvalid hvalid (by omega)
    exact ⟨_, exec_sample_of_firstInvalid (hcfg ▸ hwf) hfirst, ends_finish_group s' (by omega), sameChannels_finish _ _ _ _,
      sameBuf_finish _ _ _ _⟩

end Sys2Proof.Machine
end

section
/-! The words of BUILD (one word for a command without a SIZE, one per legal SIZE for a read command), what a frame leaves in the
state, and the period carried by a frame and read back from a response. -/

namespace Sys2Proof.Machine

open Sys2Proof.Spec

section
variable {bufBytes : Nat} {cmd : BitVec 4} {size : BitVec 8}

/-- A command that its CMD alone is dispatched to has one BUILD word: every other word of that CMD is illegal
(spec 30_encoding.md R49, R55). -/
theorem illegal_of_ne_encode_build {i : Instr} (hcmd : ∀ size, buildOfCmd cmd size = .ok i) {w : Word} (hopc : fieldOpc w = 4#4)
    (hw : fieldCmd w = cmd) (hne : w ≠ encode i) : Illegal bufBytes w := by
  cases hd : decode bufBytes w with
  | error e => exact ⟨e, hd⟩
  | ok j =>
    obtain ⟨-, hj⟩ := decodeFields_ok hd
    rw [hopc, hw] at hj
    obtain rfl : i = j := Except.ok.inj ((hcmd _).symm.trans hj)
    exact absurd (dispatchedWordIsItsEncoding bufBytes w i hd).1.symm hne

/-- The word `(size << 8) | (cmd << 4) | opc` is the three fields packed (spec 30_encoding.md R46). -/
theorem sizedWord_eq_packWord (size : BitVec 8) (cmd opc : BitVec 4) :
    sizedWord size (16 * cmd.toNat + opc.toNat) = packWord size cmd opc := by
  have hs := size.isLt
  have hc := cmd.isLt
  have ho := opc.isLt
  apply BitVec.eq_of_toNat_eq
  rw [packWord_toNat, sizedWord, BitVec.toNat_ofNat]
  omega

/-- A word whose SIZE is taken but not legal is illegal (spec 30_encoding.md R49). -/
theorem illegal_packWord_of_size {opc : BitVec 4} (htakes : takesSize opc cmd = true) (h : ¬ SizeLegal bufBytes size) :
    Illegal bufBytes (packWord size cmd opc) := by
  cases hd : decode bufBytes (packWord size cmd opc) with
  | error e => exact ⟨e, hd⟩
  | ok i =>
    obtain ⟨htaken, -⟩ := decodeFields_ok ((decode_packWord bufBytes size cmd opc).symm.trans hd)
    exact absurd (legalSize_iff.mp (htaken.size_legal htakes)) h

/-- A read command's word with a legal SIZE is dispatched (spec 30_encoding.md R49, R55). -/
theorem decode_packWord_read (hread : isReadCmd cmd = true) (h : SizeLegal bufBytes size) :
    decode bufBytes (packWord size cmd 4#4) = buildOfCmd cmd size :=
  decode_packWord_of_taken (fieldsTaken_of_sized (fun hne => absurd rfl hne) (takesSize_iff.mpr (.inr ⟨rfl, hread⟩))
    (legalSize_iff.mpr h))

end

section
variable {s : State}

/-- BUF begins with the frame after a BUILD (spec 41_frame_builder.md R71). -/
theorem bufBegins_builtState (hwf : s.buf.wf) (k : Command) (payload : List Half) (res : Word) :
    BufBegins (builtState k payload res s) (frameBytes s.cfg k payload) := by
  intro j hj
  have h := Memory.readByte_writeBytes_inside hwf 0 (frameBytes s.cfg k payload) j hj
  rwa [Nat.zero_add] at h

/-- BUF keeps every byte behind the frame (spec 41_frame_builder.md R71). -/
theorem sameBufFrom_builtState (hwf : s.buf.wf) (k : Command) (payload : List Half) (res : Word) :
    SameBufFrom (frameBytes s.cfg k payload).length s (builtState k payload res s) := fun a ha =>
  Memory.readByte_writeBytes_outside hwf 0 (frameBytes s.cfg k payload) a (.inr (by rwa [Nat.zero_add]))

/-- A BUILD ends OK with LEN the frame's length (spec 41_frame_builder.md R71). -/
theorem ends_builtState (k : Command) {payload : List Half} (hp : payload.length ≤ 2) (res : Word) :
    Ends (builtState k payload res s) 0 (frameBytes s.cfg k payload).length res.toNat := by
  have hlen : (BitVec.ofNat 8 (2 + 3 * payload.length)).toNat = 2 + 3 * payload.length := Nat.mod_eq_of_lt (by omega)
  rw [frameBytes_length, ← hlen]
  exact ends_finish (s.setBuf _) .ok _ res

/-- The outcome `o` of a BUILD on `s` leaves the frame `bytes`: it ends OK with LEN the frame's length and RESULT = `res`, BUF begins
with the frame, and the rest is as it was (spec 41_frame_builder.md R71). -/
def LeavesFrame (s : State) (o : Outcome) (bytes : List Byte) (res : Nat) : Prop :=
  ∃ t, o = .next t ∧ Ends t 0 bytes.length res ∧ BufBegins t bytes ∧ SameBufFrom bytes.length s t ∧ SameChannels s t ∧ Untouched s t

/-- On a block with legal parameters every frame of at most two payload words is left whole. -/
theorem leavesFrame_buildFrame (hcfg : s.cfg.wf) (hwf : s.buf.wf) (k : Command) {payload : List Half} (hp : payload.length ≤ 2)
    (res : Word) : LeavesFrame s (buildFrame k payload res s) (frameBytes s.cfg k payload) res.toNat :=
  ⟨builtState k payload res s, buildFrame_of_wf hcfg hp, ends_builtState k hp res, bufBegins_builtState hwf k payload res,
    sameBufFrom_builtState hwf k payload res, ⟨rfl, rfl, rfl, rfl⟩, rfl, rfl, rfl, rfl, rfl⟩

/-- A frame without a payload is the command's code (spec 30_encoding.md R52). -/
theorem leavesFrame_code (hcfg : s.cfg.wf) (hwf : s.buf.wf) (k : Command) (res : Word) :
    LeavesFrame s (buildFrame k [] res s) (halfBytes (wireCodeOf s.cfg.wireCode k)) res.toNat :=
  leavesFrame_buildFrame hcfg hwf k (payload := []) (Nat.zero_le 2) res

/-- Settles O20: the word is START's encoding, and START's frame has the one payload word START_MODE. -/
theorem buildStartLeavesModeGroup : Obligations.BuildStartLeavesModeGroup := by
  unfold Obligations.BuildStartLeavesModeGroup
  intro s hcfg hwf
  exact ⟨decodeOfEncode _ .buildStart rfl, fun w => illegal_of_ne_encode_build (i := .buildStart) fun _ => rfl,
    leavesFrame_buildFrame hcfg hwf .start (payload := [s.cfg.startMode]) (by simp) 0#32⟩

/-- Settles O21: each of the three words is its command's encoding, and the frame is the command's code. -/
theorem buildWithoutPayloadLeavesCode : Obligations.BuildWithoutPayloadLeavesCode := by
  unfold Obligations.BuildWithoutPayloadLeavesCode
  intro s i w code hcfg hwf hi
  have hframe := fun k => leavesFrame_code hcfg hwf k 0#32
  simp only [List.mem_cons, Prod.mk.injEq, List.not_mem_nil, or_false] at hi
  rcases hi with ⟨rfl, rfl, rfl⟩ | ⟨rfl, rfl, rfl⟩ | ⟨rfl, rfl, rfl⟩
  · exact ⟨decodeOfEncode _ .buildStop rfl, fun w => illegal_of_ne_encode_build (i := .buildStop) fun _ => rfl, hframe .stop⟩
  · exact ⟨decodeOfEncode _ .buildReset rfl, fun w => illegal_of_ne_encode_build (i := .buildReset) fun _ => rfl, hframe .reset⟩
  · exact ⟨decodeOfEncode _ .buildClean rfl, fun w => illegal_of_ne_encode_build (i := .buildClean) fun _ => rfl, hframe .clean⟩

/-- The length of the response to expect fits RESULT (spec 41_frame_builder.md R71). -/
theorem wireLength_toNat (size : BitVec 8) : (BitVec.ofNat 32 (wireLength size)).toNat = size.toNat + size.toNat / 2 :=
  Nat.mod_eq_of_lt (show size.toNat + size.toNat / 2 < _ by omega)

/-- The BUILD of a read command with a legal SIZE leaves the code, and in RESULT the length of the response to expect
(spec 41_frame_builder.md R71, R75). -/
theorem leavesFrame_buildRead (hcfg : s.cfg.wf) (hwf : s.buf.wf) (k : Command) {size : BitVec 8}
    (h : SizeLegal s.cfg.bufBytes size) :
    LeavesFrame s (buildRead k size s) (halfBytes (wireCodeOf s.cfg.wireCode k)) (size.toNat + size.toNat / 2) := by
  rw [buildRead, withLegalSize_of_legal (legalSize_iff.mpr h), ← wireLength_toNat]
  exact leavesFrame_code hcfg hwf k _

/-- A read command, by its SIZE: the word of an illegal one is illegal, the word of a legal one builds the code. -/
theorem buildRead_word_and_frame (hcfg : s.cfg.wf) (hwf : s.buf.wf) (size : BitVec 8) {cmd : BitVec 4}
    (hread : isReadCmd cmd = true) (k : Command) :
    (¬ SizeLegal s.cfg.bufBytes size → Illegal s.cfg.bufBytes (sizedWord size (16 * cmd.toNat + 4))) ∧
    (SizeLegal s.cfg.bufBytes size → decode s.cfg.bufBytes (sizedWord size (16 * cmd.toNat + 4)) = buildOfCmd cmd size ∧
      LeavesFrame s (buildRead k size s) (halfBytes (wireCodeOf s.cfg.wireCode k)) (size.toNat + size.toNat / 2)) := by
  have hword : sizedWord size (16 * cmd.toNat + 4) = packWord size cmd 4#4 := sizedWord_eq_packWord size cmd 4#4
  rw [hword]
  exact ⟨illegal_packWord_of_size (takesSize_iff.mpr (.inr ⟨rfl, hread⟩)),
    fun h => ⟨decode_packWord_read hread h, leavesFrame_buildRead hcfg hwf k h⟩⟩

/-- Settles O22: the four commands are CMD 3, 4, 5 and 8, each a read command (`buildRead_word_and_frame`). -/
theorem buildReadLeavesCodeAndLength : Obligations.BuildReadLeavesCodeAndLength := by
  unfold Obligations.BuildReadLeavesCodeAndLength
  intro s size i low code hcfg hwf hi
  simp only [List.mem_cons, Prod.mk.injEq, List.not_mem_nil, or_false] at hi
  rcases hi with ⟨rfl, rfl, rfl⟩ | ⟨rfl, rfl, rfl⟩ | ⟨rfl, rfl, rfl⟩ | ⟨rfl, rfl, rfl⟩
  · exact buildRead_word_and_frame hcfg hwf size (cmd := 3#4) rfl .rdrdy
  · exact buildRead_word_and_frame hcfg hwf size (cmd := 4#4) rfl .rddata
  · exact buildRead_word_and_frame hcfg hwf size (cmd := 5#4) rfl .rdser
  · exact buildRead_word_and_frame hcfg hwf size (cmd := 8#4) rfl .rdper

end

/-- A field of a field is a field of the word. -/
theorem extractLsb'_extractLsb' {w a b m n : Nat} (x : BitVec w) (h : b + n ≤ m) :
    (x.extractLsb' a m).extractLsb' b n = x.extractLsb' (a + b) n := by
  ext j hj
  have hlt : b + j < m := by omega
  simp [hlt, Nat.add_assoc]

section
variable (s : State)

/-- The period's four bytes are the high and low bytes of its two payload words (spec 30_encoding.md R57). -/
theorem periodHigh_highByte : s.periodHigh.extractLsb' 8 8 = s.arg.extractLsb' 24 8 := extractLsb'_extractLsb' s.arg (by decide)
theorem periodHigh_lowByte : s.periodHigh.extractLsb' 0 8 = s.arg.extractLsb' 16 8 := extractLsb'_extractLsb' s.arg (by decide)
theorem periodLow_highByte : s.periodLow.extractLsb' 8 8 = s.arg.extractLsb' 8 8 := extractLsb'_extractLsb' s.arg (by decide)
theorem periodLow_lowByte : s.periodLow.extractLsb' 0 8 = s.arg.extractLsb' 0 8 := extractLsb'_extractLsb' s.arg (by decide)

/-- SETPER's frame (spec 41_frame_builder.md R79): the code, and the period in two groups. -/
theorem frameBytes_setper : frameBytes s.cfg .setper [s.periodHigh, s.periodLow] =
    [s.cfg.wireCode.setper.extractLsb' 8 8, s.cfg.wireCode.setper.extractLsb' 0 8,
      s.arg.extractLsb' 24 8, s.arg.extractLsb' 16 8, crc8 s.cfg.crcInit (s.arg.extractLsb' 24 8) (s.arg.extractLsb' 16 8),
      s.arg.extractLsb' 8 8, s.arg.extractLsb' 0 8, crc8 s.cfg.crcInit (s.arg.extractLsb' 8 8) (s.arg.extractLsb' 0 8)] := by
  rw [← periodHigh_highByte, ← periodHigh_lowByte, ← periodLow_highByte, ← periodLow_lowByte]
  rfl

variable {s}

/-- SETPER of a legal period builds its frame (spec 41_frame_builder.md R79). -/
theorem exec_setper_of_le (h : s.arg.toNat ≤ periodMax) :
    exec .buildSetper s = buildFrame .setper [s.periodHigh, s.periodLow] 0#32 s := if_neg (Nat.not_lt.mpr h)

/-- SETPER of any other period ends ARG (spec 41_frame_builder.md R79). -/
theorem exec_setper_of_gt (h : periodMax < s.arg.toNat) : exec .buildSetper s = .next (s.finish .arg 0#8 0#32) := if_pos h

end

/-- A word with a bit set above bit 19 is at least 2^20. -/
theorem le_toNat_of_extractLsb'_ne_zero {x : Word} (h : x.extractLsb' 20 12 ≠ 0#12) : 2 ^ 20 ≤ x.toNat := by
  by_contra hlt
  refine h (BitVec.eq_of_toNat_eq ?_)
  rw [BitVec.extractLsb'_toNat, Nat.shiftRight_eq_div_pow, Nat.div_eq_of_lt (by omega)]
  rfl

/-- The upper half of a legal period is at most 9 (spec 41_frame_builder.md R79). -/
theorem extractLsb'_high_le_of_le {x : Word} (h : x.toNat ≤ periodMax) : (x.extractLsb' 16 16).toNat ≤ 9 := by
  have hmax : x.toNat ≤ 604800 := h
  rw [BitVec.extractLsb'_toNat, Nat.shiftRight_eq_div_pow]
  omega

/-- Settles O23: the word is SETPER's encoding; a legal period's frame is `frameBytes_setper`, and any other period, one of 2^20 or
more included, ends with `finish` alone. -/
theorem buildSetperFramesPeriodOrRejects : Obligations.BuildSetperFramesPeriodOrRejects := by
  unfold Obligations.BuildSetperFramesPeriodOrRejects
  intro s hcfg hwf
  refine ⟨decodeOfEncode _ .buildSetper rfl, fun w => illegal_of_ne_encode_build (i := .buildSetper) fun _ => rfl,
    fun hle => ?_, fun hbad => ?_⟩
  · have hframe := leavesFrame_buildFrame hcfg hwf .setper (payload := [s.periodHigh, s.periodLow]) (Nat.le_refl 2) 0#32
    rw [← exec_setper_of_le hle, frameBytes_setper] at hframe
    obtain ⟨t, hexec, hends, hbytes, hrest⟩ := hframe
    exact ⟨t, hexec, hends, hbytes, extractLsb'_high_le_of_le hle, hrest⟩
  · have hgt : periodMax < s.arg.toNat :=
      hbad.elim id fun hbit => Nat.lt_of_lt_of_le (by decide) (le_toNat_of_extractLsb'_ne_zero hbit)
    exact ⟨_, exec_setper_of_gt hgt, ends_finish s .arg 0#8 0#32, sameBuf_finish _ _ _ _, sameChannels_finish _ _ _ _,
      untouched_finish _ _ _ _⟩

/-- PARSE of a legal size strips a response whose groups are all valid (spec 42_frame_parser.md R84). -/
theorem exec_parse_of_groupsValid {s : State} {size : BitVec 8} (hsize : SizeLegal s.cfg.bufBytes size)
    (h : GroupsValid s (size.toNat / 2)) : exec (.parse size) s =
      .next ((s.setBuf (s.buf.writeBytes 0 (strippedData s.buf (groupCount size)))).finish .ok size (size.setWidth 32)) := by
  have hnone : firstBad s.cfg.crcInit s.buf (groupCount size) = none := firstBad_eq_none.mpr fun g hg => groupOk_iff.mpr (h g hg)
  have hend := execParse_of_legal (legalSize_iff.mpr hsize)
  rwa [parseState, hnone] at hend

/-- Four bytes written to BUF read as a word, the first most significant (spec 20_memory.md R35). -/
theorem Memory.readWord_writeBytes_four {m : Memory} (h : m.wf) (a : Nat) (b0 b1 b2 b3 : Byte) :
    Memory.readWord (m.writeBytes a [b0, b1, b2, b3]) a = b0 ++ b1 ++ b2 ++ b3 := by
  have hbyte := Memory.readByte_writeBytes_inside h a [b0, b1, b2, b3]
  have hfirst : (m.writeBytes a [b0, b1, b2, b3]).readByte a = b0 := hbyte 0 (by simp)
  rw [Memory.readWord, hfirst, hbyte 1 (by simp), hbyte 2 (by simp), hbyte 3 (by simp)]
  rfl

/-- BUF word 0 on a block with legal parameters (spec 20_memory.md R29, R35). -/
theorem hostRead_firstBufWord {s : State} (h : 24 ≤ s.cfg.bufBytes) : hostRead s 0x80#8 = s.buf.readWord 0 :=
  hostRead_bufWord (k := 0) (by omega) rfl

/-- PARSE 4 of two valid groups leaves their data bytes as BUF word 0, whatever they are (spec 42_frame_parser.md R84). -/
theorem parse_four_of_groupsValid {s : State} (hwf : s.buf.wf) (hfit : 24 ≤ s.cfg.bufBytes) (h : GroupsValid s 2) :
    ∃ t, exec (.parse 4#8) s = .next t ∧ Ends t 0 4 4 ∧
      hostRead t 0x80#8 = s.buf.readByte 0 ++ s.buf.readByte 1 ++ s.buf.readByte 3 ++ s.buf.readByte 4 := by
  have hsize : SizeLegal s.cfg.bufBytes 4#8 := ⟨rfl, Nat.le_trans (by decide) hfit⟩
  have hdata : strippedData s.buf (groupCount 4#8) = [s.buf.readByte 0, s.buf.readByte 1, s.buf.readByte 3, s.buf.readByte 4] := rfl
  refine ⟨_, exec_parse_of_groupsValid hsize h, ends_finish _ .ok 4#8 _, ?_⟩
  rw [hostRead_firstBufWord, State.finish_buf, State.setBuf_buf, hdata, Memory.readWord_writeBytes_four hwf]
  exact hfit

/-- BUF begins with the payload a BUILD of the words leaves behind the code (spec 41_frame_builder.md R82). -/
def HoldsPayload (s : State) (payload : List Half) : Prop :=
  ∀ (g j : Nat) (hg : g < payload.length) (hj : j < 3), s.buf.readByte (3 * g + j) = (groupBytes s.cfg.crcInit payload[g])[j]'hj

theorem HoldsPayload.groupsValid {s : State} {payload : List Half} (h : HoldsPayload s payload) : GroupsValid s payload.length := by
  intro g hg
  have hfirst := h g 0 hg (by decide)
  rw [Nat.add_zero] at hfirst
  rw [GroupValid, hfirst, h g 1 hg (by decide), h g 2 hg (by decide)]
  rfl

/-- The payload of a built frame, copied to the start of BUF on a block with the same parameters. -/
theorem holdsPayload_of_builtState {s u : State} {k : Command} {payload : List Half} {res : Word} (hwf : s.buf.wf)
    (hcfg : u.cfg = s.cfg) (h : ∀ j < 3 * payload.length, u.buf.readByte j = (builtState k payload res s).buf.readByte (j + 2)) :
    HoldsPayload u payload := by
  intro g j hg hj
  have hindex : 3 * g + j + 2 = 2 + 3 * g + j := by omega
  rw [h _ (by omega), hindex, hcfg]
  exact readByte_builtState_group k res hwf hg hj

/-- The data bytes of a period's payload are the period (spec 30_encoding.md R57). -/
theorem HoldsPayload.period {s u : State} (h : HoldsPayload u [s.periodHigh, s.periodLow]) :
    u.buf.readByte 0 ++ u.buf.readByte 1 ++ u.buf.readByte 3 ++ u.buf.readByte 4 = s.arg := by
  have h0 : u.buf.readByte 0 = s.arg.extractLsb' 24 8 := (h 0 0 (by simp) (by decide)).trans (periodHigh_highByte s)
  have h1 : u.buf.readByte 1 = s.arg.extractLsb' 16 8 := (h 0 1 (by simp) (by decide)).trans (periodHigh_lowByte s)
  have h3 : u.buf.readByte 3 = s.arg.extractLsb' 8 8 := (h 1 0 (by simp) (by decide)).trans (periodLow_highByte s)
  have h4 : u.buf.readByte 4 = s.arg.extractLsb' 0 8 := (h 1 1 (by simp) (by decide)).trans (periodLow_lowByte s)
  rw [h0, h1, h3, h4]
  exact append_wordBytes s.arg

/-- Settles O25: the copied payload's groups are valid, so PARSE strips them, and their data bytes are the period's four. -/
theorem periodRoundTrip : Obligations.PeriodRoundTrip := by
  unfold Obligations.PeriodRoundTrip
  intro s t u hcfg hwf huwf hle hexec hucfg hcopy
  rw [exec_setper_of_le hle] at hexec
  obtain ⟨-, rfl⟩ := buildFrame_next hexec
  have hpayload : HoldsPayload u [s.periodHigh, s.periodLow] := holdsPayload_of_builtState hwf hucfg hcopy
  obtain ⟨v, hv, hends, hread⟩ := parse_four_of_groupsValid huwf (hucfg ▸ hcfg.2.1) hpayload.groupsValid
  exact ⟨v, hv, hends, hread.trans hpayload.period⟩

end Sys2Proof.Machine
end

section
/-! PARSE and SAMPLE as the host sees them: what a stripped response leaves in BUF, byte by byte and word by word, and the channels
read back from it. -/

namespace Sys2Proof.Machine

open Sys2Proof.Spec

/-- PARSE's word with a SIZE (spec 42_frame_parser.md R84). -/
theorem sizedWord_parse (size : BitVec 8) : sizedWord size 0x05 = encode (.parse size) := sizedWord_eq_packWord size 0#4 5#4

/-- What PARSE leaves of a valid response: the data bytes from BUF[0] on, LEN and RESULT the data size (spec 42_frame_parser.md R84). -/
def strippedState (size : BitVec 8) (s : State) : State :=
  (s.setBuf (s.buf.writeBytes 0 (strippedData s.buf (groupCount size)))).finish .ok size (size.setWidth 32)

theorem ends_strippedState (size : BitVec 8) (s : State) : Ends (strippedState size s) 0 size.toNat size.toNat := by
  have hres : (size.setWidth 32).toNat = size.toNat := BitVec.toNat_setWidth_of_le (by decide)
  have hends := ends_finish (s.setBuf (s.buf.writeBytes 0 (strippedData s.buf (groupCount size)))) .ok size (size.setWidth 32)
  rwa [hres] at hends

section
variable {s : State} {size : BitVec 8}

/-- PARSE of a legal size leaves a valid response stripped. -/
theorem exec_parse_eq_strippedState (hsize : SizeLegal s.cfg.bufBytes size) (h : GroupsValid s (size.toNat / 2)) :
    exec (.parse size) s = .next (strippedState size s) := exec_parse_of_groupsValid hsize h

/-- A data byte of group `g` moves from the wire's groups of three to BUF's groups of two (spec 42_frame_parser.md R84). -/
theorem readByte_strippedState (hwf : s.buf.wf) {g : Nat} (hg : g < groupCount size) (j : Nat) (hj : j < 2) :
    (strippedState size s).buf.readByte (2 * g + j) = s.buf.readByte (3 * g + j) := by
  have hdata : (strippedData s.buf (groupCount size))[2 * g + j]? = some (s.buf.readByte (3 * g + j)) := by
    match j, hj with
    | 0, _ => exact strippedData_even s.buf hg
    | 1, _ => exact strippedData_odd s.buf hg
  rw [strippedState, State.finish_buf, State.setBuf_buf, Memory.readByte_writeBytes hwf, if_pos (Nat.zero_le _), Nat.sub_zero, hdata,
    Option.getD_some]

/-- Stripping writes as many bytes as LEN says (spec 42_frame_parser.md R85). -/
theorem sameBufFrom_strippedState (hwf : s.buf.wf) : SameBufFrom size.toNat s (strippedState size s) := by
  intro a ha
  refine Memory.readByte_writeBytes_outside hwf 0 (strippedData s.buf (groupCount size)) a (.inr ?_)
  rw [strippedData_length, groupCount]
  omega

/-- BUF word `k` of a stripped response is the float of channel `k`: groups 2k and 2k + 1 (spec 30_encoding.md R58). -/
theorem readWord_strippedState (hwf : s.buf.wf) {k : Nat} (hk : 2 * k + 1 < groupCount size) :
    (strippedState size s).buf.readWord (4 * k) = channelBits s.buf k := by
  have hfirst : ∀ j < 2, (strippedState size s).buf.readByte (4 * k + j) = s.buf.readByte (6 * k + j) := by
    simpa only [← Nat.mul_assoc, Nat.reduceMul] using readByte_strippedState hwf (show 2 * k < groupCount size by omega)
  have hsecond : ∀ j < 2, (strippedState size s).buf.readByte (4 * k + 2 + j) = s.buf.readByte (6 * k + 3 + j) := by
    simpa only [Nat.mul_add, ← Nat.mul_assoc, Nat.reduceMul] using readByte_strippedState hwf hk
  have h0 : (strippedState size s).buf.readByte (4 * k) = s.buf.readByte (6 * k) := hfirst 0 (by decide)
  have h2 : (strippedState size s).buf.readByte (4 * k + 2) = s.buf.readByte (6 * k + 3) := hsecond 0 (by decide)
  rw [Memory.readWord, channelBits, h0, hfirst 1 (by decide), h2, hsecond 1 (by decide)]

end

/-- Settles O26: a valid response ends in `strippedState`, an invalid one in `finish` alone with its first invalid group. -/
theorem parseStripsOrRejects : Obligations.ParseStripsOrRejects := by
  unfold Obligations.ParseStripsOrRejects
  intro s size hwf
  rw [sizedWord_parse]
  refine ⟨illegal_packWord_of_size (takesSize_iff.mpr (.inl rfl)),
    fun hsize => decodeOfEncode _ (.parse size) (legalSize_iff.mpr hsize), fun hsize hvalid => ?_, fun g hsize hfirst => ?_⟩
  · exact ⟨_, exec_parse_eq_strippedState hsize hvalid, ends_strippedState size s,
      fun g hg => ⟨readByte_strippedState hwf hg 0 (by decide), readByte_strippedState hwf hg 1 (by decide)⟩,
      sameBufFrom_strippedState hwf, ⟨rfl, rfl, rfl, rfl⟩, rfl, rfl, rfl, rfl, rfl⟩
  · have hg : g < 256 := by
      have hlt := hfirst.1
      have hbound := size.isLt
      omega
    exact ⟨_, exec_parse_of_firstInvalid hsize hfirst, ends_finish_group s hg, sameBuf_finish _ _ _ _,
      sameChannels_finish _ _ _ _, untouched_finish _ _ _ _⟩

/-- Settles O27: PARSE looks at the checksums only, so the four data bytes arrive whatever they are (`parse_four_of_groupsValid`). -/
theorem periodReadBackIsNotChecked : Obligations.PeriodReadBackIsNotChecked := by
  unfold Obligations.PeriodReadBackIsNotChecked
  intro s hwf hfit hvalid
  exact parse_four_of_groupsValid hwf hfit hvalid

section
variable {s t : State}

/-- SAMPLE ends OK on a valid response only (spec 43_float_decoder.md R98). -/
theorem groupsValid_of_sample (h : exec .sample s = .next t) (hok : t.errField = 0#4) : GroupsValid s 8 := by
  obtain ⟨-, rfl⟩ := sample_next h
  rcases sampleState_cases s with ⟨g, -, he⟩ | ⟨hnone, -⟩
  · rw [he] at hok
    exact absurd hok (errField_finish_ne_zero nofun)
  · exact fun g hg => groupOk_iff.mp (firstBad_eq_none.mp hnone g hg)

/-- Channel `k` after a SAMPLE that ends OK (spec 43_float_decoder.md R98). -/
theorem channel_of_sample (h : exec .sample s = .next t) (hok : t.errField = 0#4) {k : Nat} (hk : k < 4) :
    [t.ch0, t.ch1, t.ch2, t.ch3][k]?.getD 0#32 = fdecWord (channelBits s.buf k) := by
  rw [sample_next_of_ok h hok]
  match k, hk with
  | 0, _ | 1, _ | 2, _ | 3, _ => rfl

end

/-- Settles O37: the groups SAMPLE found valid are those PARSE 16 strips, and BUF word `k` then is the float SAMPLE decoded for channel `k`. -/
theorem sampleAgreesWithParseAndFdec : Obligations.SampleAgreesWithParseAndFdec := by
  unfold Obligations.SampleAgreesWithParseAndFdec
  intro s t hcfg hwf h hok
  obtain ⟨-, hfit, -⟩ := hcfg
  have hsize : SizeLegal s.cfg.bufBytes 16#8 := ⟨rfl, hfit⟩
  have hparse := exec_parse_eq_strippedState hsize (groupsValid_of_sample h hok)
  refine ⟨_, hparse, ends_strippedState 16#8 s, fun k hk off hoff => ?_⟩
  have hgroups : 2 * k + 1 < groupCount 16#8 := show 2 * k + 1 < 8 by omega
  have hword : k < (strippedState 16#8 s).cfg.bufBytes / 4 := show k < s.cfg.bufBytes / 4 by omega
  have hread : hostRead (strippedState 16#8 s) off = channelBits s.buf k :=
    (hostRead_bufWord hword hoff).trans (readWord_strippedState hwf hgroups)
  refine ⟨_, rfl, ?_⟩
  calc fdecWord (hostRead (strippedState 16#8 s) off) = fdecWord (channelBits s.buf k) := by rw [hread]
    _ = [t.ch0, t.ch1, t.ch2, t.ch3][k]?.getD 0#32 := (channel_of_sample h hok hk).symm

end Sys2Proof.Machine
end

section
/-! The float decoder, path by path (spec 43_float_decoder.md R90 to R93), said on the fields of the pattern as the statements read them. -/

namespace Sys2Proof.Machine

open Sys2Proof.Spec

/-- The integer part `v` of a value from 1.0 up (spec 43_float_decoder.md R92). -/
abbrev integerPart (w : Word) : Nat := 2 ^ (bexp w - 127) + mant w / 2 ^ (150 - bexp w)

/-- The truncated fraction of a value from 1.0 up, in hundredths (spec 43_float_decoder.md R93). -/
abbrev fractionPart (w : Word) : Nat := mant w % 2 ^ (150 - bexp w) * 100 / 2 ^ (150 - bexp w)

/-- A power of two cut in two. -/
theorem two_pow_mul_two_pow {a b n : Nat} (h : a + b = n) : 2 ^ a * 2 ^ b = 2 ^ n := by
  rw [← Nat.pow_add, h]

section
variable (w : Word)

theorem mantissaOf_eq_mant : mantissaOf w = mant w := by
  rw [mantissaOf, BitVec.extractLsb'_toNat, Nat.shiftRight_zero, mant]

theorem biasedExpOf_eq_bexp : biasedExpOf w = bexp w := by
  rw [biasedExpOf, BitVec.extractLsb'_toNat, Nat.shiftRight_eq_div_pow, bexp]

theorem expOf_eq_bexp_sub : expOf w = (bexp w : Int) - 127 := by
  rw [expOf, biasedExpOf_eq_bexp]
  rfl

theorem mant_lt : mant w < 2 ^ 23 := Nat.mod_lt _ (by decide)

/-- The magnitude bits are the exponent field above the mantissa field. -/
theorem magnitude_eq : magnitude w = bexp w * 2 ^ 23 + mant w := by
  unfold magnitude bexp mant
  omega

theorem fractionPart_lt : fractionPart w < 100 :=
  Nat.div_lt_of_lt_mul (Nat.mul_lt_mul_of_pos_right (Nat.mod_lt _ (Nat.two_pow_pos _)) (by decide))

/-- The inner term of the sub-unit path is in [100, 199] (spec 43_float_decoder.md R91). -/
theorem subUnit_inner_bounds : 100 ≤ (2 ^ 23 + mant w) * 100 / 2 ^ 23 ∧ (2 ^ 23 + mant w) * 100 / 2 ^ 23 ≤ 199 := by
  have hmant := mant_lt w
  omega

end

section
variable {w : Word}

/-- Zero of either sign (spec 43_float_decoder.md R90). -/
theorem fdec_of_zero (hE : bexp w = 0) (hm : mant w = 0) : fdec w = 0 := by
  rw [fdec, biasedExpOf_eq_bexp, mantissaOf_eq_mant, if_pos ⟨hE, hm⟩]

/-- The sub-unit path (spec 43_float_decoder.md R91). -/
theorem fdec_of_subUnit (hE : bexp w < 127) (hne : ¬(bexp w = 0 ∧ mant w = 0)) :
    fdec w = (2 ^ 23 + mant w) * 100 / 2 ^ 23 / 2 ^ (127 - bexp w) := by
  have hexp : (-((bexp w : Int) - 127)).toNat = 127 - bexp w := by omega
  rw [fdec, biasedExpOf_eq_bexp, mantissaOf_eq_mant, expOf_eq_bexp_sub, if_neg hne, if_pos (by omega), hexp, fdecBelowOne,
    Nat.shiftRight_eq_div_pow, Nat.shiftRight_eq_div_pow]

/-- Every value from 4096.0 up is clamped, infinities and NaNs among them (spec 43_float_decoder.md R92). -/
theorem fdec_of_large (hE : 139 ≤ bexp w) : fdec w = 300000 := by
  rw [fdec, biasedExpOf_eq_bexp, expOf_eq_bexp_sub, if_neg (by omega), if_neg (by omega), if_pos (by omega)]

/-- The path from 1.0 to below 4096.0: clamp, or integer part and fraction (spec 43_float_decoder.md R92, R93). -/
theorem fdec_of_fromOne (hlo : 127 ≤ bexp w) (hhi : bexp w ≤ 138) :
    fdec w = if 3000 ≤ integerPart w then 300000 else integerPart w * 100 + fractionPart w := by
  have hexp : ((bexp w : Int) - 127).toNat = bexp w - 127 := by omega
  have hshift : mantissaBits - (bexp w - 127) = 150 - bexp w := show 23 - (bexp w - 127) = _ by omega
  rw [fdec, biasedExpOf_eq_bexp, mantissaOf_eq_mant, expOf_eq_bexp_sub, if_neg (by omega), if_neg (by omega), if_neg (by omega), hexp]
  simp only [fdecFromOne, hshift, Nat.shiftRight_eq_div_pow]

theorem fdec_of_clamped (hlo : 127 ≤ bexp w) (hhi : bexp w ≤ 138) (hclamp : 3000 ≤ integerPart w) : fdec w = 300000 :=
  (fdec_of_fromOne hlo hhi).trans (if_pos hclamp)

theorem fdec_of_unclamped (hlo : 127 ≤ bexp w) (hhi : bexp w ≤ 138) (hv : integerPart w < 3000) :
    fdec w = integerPart w * 100 + fractionPart w :=
  (fdec_of_fromOne hlo hhi).trans (if_neg (Nat.not_le.mpr hv))

/-- An unclamped result is in [100, 299999] (spec 43_float_decoder.md R93). -/
theorem fdec_bounds_of_unclamped (hlo : 127 ≤ bexp w) (hhi : bexp w ≤ 138) (hv : integerPart w < 3000) :
    100 ≤ fdec w ∧ fdec w ≤ 299999 := by
  have hpos : 0 < integerPart w := Nat.add_pos_left (Nat.two_pow_pos _) _
  have hfrac := fractionPart_lt w
  rw [fdec_of_unclamped hlo hhi hv]
  omega

/-- Below 4096.0 the clamp shows in the result exactly when the integer part reaches 3000 (spec 43_float_decoder.md R92). -/
theorem fdec_eq_clamp_iff (hlo : 127 ≤ bexp w) (hhi : bexp w ≤ 138) : fdec w = 300000 ↔ 3000 ≤ integerPart w := by
  refine ⟨fun h => ?_, fdec_of_clamped hlo hhi⟩
  by_contra hv
  obtain ⟨-, hle⟩ := fdec_bounds_of_unclamped hlo hhi (Nat.not_le.mp hv)
  omega

/-- The integer part is below the next power of two, so below 2048 for exponents up to 10 (spec 43_float_decoder.md R92). -/
theorem integerPart_lt (hlo : 127 ≤ bexp w) (hhi : bexp w ≤ 137) : integerPart w < 2048 := by
  have hsplit : 2 ^ (150 - bexp w) * 2 ^ (bexp w - 127) = 2 ^ 23 := two_pow_mul_two_pow (by omega)
  have hmant : mant w / 2 ^ (150 - bexp w) < 2 ^ (bexp w - 127) := Nat.div_lt_of_lt_mul ((mant_lt w).trans_eq hsplit.symm)
  have hpow : 2 ^ (bexp w - 127) ≤ 2 ^ 10 := Nat.pow_le_pow_right (by decide) (by omega)
  rw [integerPart]
  omega

/-- The row of R91's table for a biased exponent `E`: the inner term's bounds, shifted. -/
theorem fdec_row {E : Nat} (hE : bexp w = E) (hlt : E < 127) (hne : ¬(bexp w = 0 ∧ mant w = 0)) :
    100 / 2 ^ (127 - E) ≤ fdec w ∧ fdec w ≤ 199 / 2 ^ (127 - E) := by
  obtain ⟨hlo, hhi⟩ := subUnit_inner_bounds w
  rw [fdec_of_subUnit (hE ▸ hlt) hne, hE]
  exact ⟨Nat.div_le_div_right hlo, Nat.div_le_div_right hhi⟩

/-- A shift by `k` or more leaves at most `199 >> k` of the inner term (spec 43_float_decoder.md R91). -/
theorem fdec_le_of_shift {k : Nat} (hk : bexp w + k ≤ 127) (hlt : bexp w < 127) (hne : ¬(bexp w = 0 ∧ mant w = 0)) :
    fdec w ≤ 199 / 2 ^ k :=
  (fdec_row rfl hlt hne).2.trans (Nat.div_le_div_left (Nat.pow_le_pow_right (by decide) (by omega)) (Nat.two_pow_pos k))

end

/-- Settles O30: each row of the table is the inner term's range shifted (`fdec_row`), and from e = -8 down nothing is left of it. -/
theorem fdecOfZeroAndSubUnit : Obligations.FdecOfZeroAndSubUnit := by
  unfold Obligations.FdecOfZeroAndSubUnit
  intro w
  refine ⟨fdec_of_zero, fun hlt hne => ?_⟩
  obtain ⟨hlo, hhi⟩ := subUnit_inner_bounds w
  have hrow : ∀ E < 127, bexp w = E → 100 / 2 ^ (127 - E) ≤ fdec w ∧ fdec w ≤ 199 / 2 ^ (127 - E) :=
    fun E hE h => fdec_row h hE hne
  exact ⟨fdec_of_subUnit hlt hne, hlo, hhi, fdec_le_of_shift (k := 1) (by omega) hlt hne,
    hrow 126 (by decide), hrow 125 (by decide), hrow 124 (by decide), hrow 123 (by decide), hrow 122 (by decide), hrow 121 (by decide),
    fun h => (hrow 120 (by decide) h).2,
    fun h => Nat.le_zero.mp (fdec_le_of_shift (k := 8) (by omega) hlt hne)⟩

/-- Settles O31: the clamp is on the integer part, which exponents up to 10 keep below 2048; at exponent 11 the integer part is
`2048 + m / 2^12`. -/
theorem fdecClampsFromThreeThousand : Obligations.FdecClampsFromThreeThousand := by
  unfold Obligations.FdecClampsFromThreeThousand
  intro w
  refine ⟨fdec_of_large, fdec_of_clamped, fun hlo hhi => ?_, fun hE => ?_⟩
  · have hv := integerPart_lt hlo hhi
    obtain ⟨-, hle⟩ := fdec_bounds_of_unclamped hlo (by omega) (hv.trans (by decide))
    exact ⟨hv, by omega⟩
  · have hmant : 3000 ≤ 2 ^ 11 + mant w / 2 ^ 12 ↔ 0x3B8000 ≤ mant w := by omega
    have hmagnitude : 0x3B8000 ≤ mant w ↔ 0x453B8000 ≤ magnitude w := by
      rw [magnitude_eq, hE]
      omega
    have hclamp : fdec w = 300000 ↔ 3000 ≤ 2 ^ 11 + mant w / 2 ^ 12 := by
      have h := fdec_eq_clamp_iff (w := w) (by omega) (by omega)
      rwa [integerPart, hE] at h
    exact ⟨hmant, hmagnitude, hclamp.trans hmant⟩

/-- Settles O32: the path from 1.0 up where the clamp does not fire (`fdec_of_unclamped`). -/
theorem fdecTruncatesTheFraction : Obligations.FdecTruncatesTheFraction := by
  unfold Obligations.FdecTruncatesTheFraction
  intro w hlo hhi hv
  exact ⟨fdec_of_unclamped hlo hhi hv, Nat.le_of_lt_succ (fractionPart_lt w), fdec_bounds_of_unclamped hlo hhi hv⟩

end Sys2Proof.Machine
end

section
/-! The float decoder as one formula: the significand scaled by the exponent, in hundredths, truncated once and clamped
(spec 43_float_decoder.md R95, R96). -/

namespace Sys2Proof.Machine

open Sys2Proof.Spec

/-- The significand with its leading one, scaled by the biased exponent: `2^150` times the value of a normal pattern. -/
def scaledValue (w : Word) : Nat := (2 ^ 23 + mant w) * 2 ^ bexp w

/-- A hundred times the scaled value, truncated to an integer. -/
def hundredths (w : Word) : Nat := scaledValue w * 100 / 2 ^ 150

section
variable {w : Word}

/-- While the exponent leaves a shift to the right, the powers of two cancel. -/
theorem hundredths_eq_div (h : bexp w ≤ 150) : hundredths w = (2 ^ 23 + mant w) * 100 / 2 ^ (150 - bexp w) := by
  have hsplit : 2 ^ (150 - bexp w) * 2 ^ bexp w = 2 ^ 150 := two_pow_mul_two_pow (by omega)
  rw [hundredths, scaledValue, ← hsplit, Nat.mul_right_comm, Nat.mul_div_mul_right _ _ (Nat.two_pow_pos _)]

/-- The two floors of the sub-unit path are one (spec 43_float_decoder.md R95, "Argument"). -/
theorem hundredths_of_subUnit (hE : bexp w < 127) :
    hundredths w = (2 ^ 23 + mant w) * 100 / 2 ^ 23 / 2 ^ (127 - bexp w) := by
  have hshift : 23 + (127 - bexp w) = 150 - bexp w := by omega
  rw [hundredths_eq_div (by omega), Nat.div_div_eq_div_mul, ← Nat.pow_add, hshift]

/-- From 1.0 up the integer part passes the floor, and the fraction is truncated (spec 43_float_decoder.md R95, "Argument"). -/
theorem hundredths_of_fromOne (hlo : 127 ≤ bexp w) (hhi : bexp w ≤ 138) :
    hundredths w = integerPart w * 100 + fractionPart w := by
  have hsplit : 2 ^ (150 - bexp w) * 2 ^ (bexp w - 127) = 2 ^ 23 := two_pow_mul_two_pow (by omega)
  have hmant := Nat.div_add_mod (mant w) (2 ^ (150 - bexp w))
  have hsig : (2 ^ 23 + mant w) * 100 =
      2 ^ (150 - bexp w) * (integerPart w * 100) + mant w % 2 ^ (150 - bexp w) * 100 := by
    calc (2 ^ 23 + mant w) * 100
        = (2 ^ (150 - bexp w) * 2 ^ (bexp w - 127) +
            (2 ^ (150 - bexp w) * (mant w / 2 ^ (150 - bexp w)) + mant w % 2 ^ (150 - bexp w))) * 100 := by rw [hmant, hsplit]
      _ = 2 ^ (150 - bexp w) * (integerPart w * 100) + mant w % 2 ^ (150 - bexp w) * 100 := by ring
  rw [hundredths_eq_div (by omega), hsig, Nat.mul_add_div (Nat.two_pow_pos _)]

/-- A zero or subnormal gives 0, although the formula adds a leading one to it (spec 43_float_decoder.md R95, "Argument"). -/
theorem hundredths_of_bexp_zero (hE : bexp w = 0) : hundredths w = 0 := by
  have hmant := mant_lt w
  rw [hundredths, scaledValue, hE]
  omega

/-- From 4096.0 up the formula is past the clamp. -/
theorem le_hundredths_of_large (hE : 139 ≤ bexp w) : 300000 ≤ hundredths w := by
  have hscaled : 2 ^ 23 * 2 ^ 139 ≤ scaledValue w :=
    Nat.mul_le_mul (Nat.le_add_right _ _) (Nat.pow_le_pow_right (by decide) hE)
  rw [hundredths, Nat.le_div_iff_mul_le (by decide)]
  omega

end

/-- All paths of fdec at once: the hundredths of the scaled value, clamped (spec 43_float_decoder.md R95). -/
theorem fdec_eq_min_hundredths (w : Word) : fdec w = min (hundredths w) 300000 := by
  by_cases hzero : bexp w = 0 ∧ mant w = 0
  · rw [fdec_of_zero hzero.1 hzero.2, hundredths_of_bexp_zero hzero.1, Nat.zero_min]
  by_cases hsub : bexp w < 127
  · have hdec := (hundredths_of_subUnit hsub).trans (fdec_of_subUnit hsub hzero).symm
    rw [hdec, Nat.min_eq_left (fdec_le_outMax w)]
  by_cases hlarge : 139 ≤ bexp w
  · rw [fdec_of_large hlarge, Nat.min_eq_right (le_hundredths_of_large hlarge)]
  have hlo : 127 ≤ bexp w := Nat.not_lt.mp hsub
  have hhi : bexp w ≤ 138 := by omega
  have hfrac := fractionPart_lt w
  rw [fdec_of_fromOne hlo hhi, hundredths_of_fromOne hlo hhi]
  split <;> omega

/-- A hundred times the IEEE-754 magnitude, truncated (spec 43_float_decoder.md R95): exactly the scaled value for a normal pattern, 0
for a zero or subnormal. -/
theorem floor_ieeeMagnitude (w : Word) : ⌊100 * ieeeMagnitude w⌋ = (hundredths w : ℤ) := by
  by_cases hE : bexp w = 0
  · have hmant : (mant w : ℚ) < 2 ^ 23 := by exact_mod_cast mant_lt w
    have hpos : (0 : ℚ) ≤ mant w := Nat.cast_nonneg _
    rw [hundredths_of_bexp_zero hE, ieeeMagnitude, if_pos hE, Nat.cast_zero, Int.floor_eq_zero_iff, Set.mem_Ico]
    constructor
    · positivity
    · norm_num
      linarith
  · have hvalue : 100 * ieeeMagnitude w = ((scaledValue w * 100 : ℕ) : ℚ) / ((2 ^ 150 : ℕ) : ℚ) := by
      rw [ieeeMagnitude, if_neg hE, zpow_sub₀ two_ne_zero, zpow_natCast, scaledValue]
      push_cast
      ring
    rw [hvalue, Rat.floor_natCast_div_natCast, hundredths]
    rfl

/-- Settles O33: on a finite pattern the hundredths are those of the IEEE-754 magnitude. -/
theorem fdecClosedForm : Obligations.FdecClosedForm := by
  unfold Obligations.FdecClosedForm
  refine ⟨fun w _ => ?_, fun w hE => fdec_of_large (by omega)⟩
  rw [fdec_eq_min_hundredths, floor_ieeeMagnitude, Nat.cast_min]
  rfl

/-- The scaled value grows with the magnitude bits: by the mantissa within an exponent, and a larger exponent at least doubles it. -/
theorem scaledValue_mono {w w' : Word} (h : magnitude w ≤ magnitude w') : scaledValue w ≤ scaledValue w' := by
  rw [magnitude_eq, magnitude_eq] at h
  have hmant := mant_lt w
  have hmant' := mant_lt w'
  unfold scaledValue
  rcases Nat.lt_trichotomy (bexp w) (bexp w') with hlt | heq | hgt
  · calc (2 ^ 23 + mant w) * 2 ^ bexp w ≤ 2 ^ 24 * 2 ^ bexp w := Nat.mul_le_mul_right _ (by omega)
      _ = 2 ^ 23 * 2 ^ (bexp w + 1) := by ring
      _ ≤ (2 ^ 23 + mant w') * 2 ^ bexp w' :=
        Nat.mul_le_mul (Nat.le_add_right _ _) (Nat.pow_le_pow_right (by decide) hlt)
  · rw [heq] at h ⊢
    exact Nat.mul_le_mul_right _ (by omega)
  · omega

/-- fdec is monotone in the magnitude bits (spec 43_float_decoder.md R96). -/
theorem fdec_mono {w w' : Word} (h : magnitude w ≤ magnitude w') : fdec w ≤ fdec w' := by
  rw [fdec_eq_min_hundredths, fdec_eq_min_hundredths]
  exact min_le_min_right _ (Nat.div_le_div_right (Nat.mul_le_mul_right _ (scaledValue_mono h)))

/-- The sign bit is no magnitude bit. -/
theorem magnitude_flip_sign (w : Word) : magnitude (w ^^^ 0x80000000#32) = magnitude w := by
  rw [magnitude, BitVec.toNat_xor, Nat.xor_mod_two_pow]
  exact Nat.xor_zero _

/-- The results on the two sides of the clamp and of 0.01 (spec 43_float_decoder.md R96). -/
theorem fdec_at_thresholds : fdec 0x453B7FFF#32 = 299999 ∧ fdec 0x453B8000#32 = 300000 ∧ fdec 0x3C23D70B#32 = 1 ∧
    fdec 0x3C23D70A#32 = 0 := by
  decide +kernel

/-- Settles O34: order and sign blindness hold of the magnitude bits, and by the order the four threshold results bound all others. -/
theorem fdecRangeAndOrder : Obligations.FdecRangeAndOrder := by
  unfold Obligations.FdecRangeAndOrder
  obtain ⟨hlargest, hclamped, hsmallest, hzero⟩ := fdec_at_thresholds
  refine ⟨fdec_le_outMax, fun _ _ => fdec_mono, fun w => ?_, hlargest, fun w hlt => ?_, hsmallest, fun w hlt => ?_⟩
  · exact le_antisymm (fdec_mono (magnitude_flip_sign w).le) (fdec_mono (magnitude_flip_sign w).ge)
  · by_contra hgt
    have hle : fdec 0x453B8000#32 ≤ fdec w := fdec_mono (Nat.not_le.mp hgt)
    omega
  · have hle : fdec w ≤ fdec 0x3C23D70A#32 := fdec_mono (Nat.le_of_lt_succ hlt)
    omega

end Sys2Proof.Machine
end

section
/-! FDEC and SAMPLE as the host sees them: one `finish`, with the channels written before it when SAMPLE finds every group valid. -/

namespace Sys2Proof.Machine

open Sys2Proof.Spec

/-- A decoded value fits a register. -/
theorem fdecWord_toNat (w : Word) : (fdecWord w).toNat = fdec w :=
  Nat.mod_eq_of_lt ((fdec_le_outMax w).trans_lt (by decide))

/-- Settles O29: the word is FDEC's encoding, and FDEC is one `finish`. -/
theorem fdecWritesDecodedArg : Obligations.FdecWritesDecodedArg := by
  unfold Obligations.FdecWritesDecodedArg
  intro s
  exact ⟨decodeOfEncode _ .fdec rfl, fun w => illegal_of_ne_encode (i := .fdec) fun _ _ => rfl, _, rfl,
    fdecWord_toNat s.arg ▸ ends_finish s .ok 0#8 (fdecWord s.arg), channelInRange_fdecWord s.arg,
    sameBuf_finish _ _ _ _, sameChannels_finish _ _ _ _, untouched_finish _ _ _ _⟩

/-- What SAMPLE leaves of a valid response: the four floats decoded (spec 43_float_decoder.md R98). -/
def sampledState (s : State) : State :=
  (s.setChannels (fdecWord (channelWord s 0)) (fdecWord (channelWord s 1)) (fdecWord (channelWord s 2))
    (fdecWord (channelWord s 3))).finish .ok 0#8 0#32

/-- SAMPLE of a valid response decodes it (spec 43_float_decoder.md R98). -/
theorem exec_sample_of_groupsValid {s : State} (hwf : s.cfg.wf) (h : GroupsValid s 8) : exec .sample s = .next (sampledState s) := by
  have hnone : firstBad s.cfg.crcInit s.buf 8 = none := firstBad_eq_none.mpr fun g hg => groupOk_iff.mpr (h g hg)
  have hend : sampleState s = sampledState s := by rw [sampleState, hnone]; rfl
  exact (execSample_of_wf hwf).trans (congrArg _ hend)

/-- Settles O35: a valid response ends in `sampledState`, an invalid one in `finish` alone with its first invalid group. -/
theorem sampleDecodesOrRejects : Obligations.SampleDecodesOrRejects := by
  unfold Obligations.SampleDecodesOrRejects
  intro s hwf
  refine ⟨decodeOfEncode _ .sample rfl, fun w => illegal_of_ne_encode (i := .sample) fun _ _ => rfl, fun hvalid => ?_,
    fun g hfirst => ?_⟩
  · exact ⟨_, exec_sample_of_groupsValid hwf hvalid, ends_finish _ .ok 0#8 0#32, fdecWord_toNat _, fdecWord_toNat _,
      fdecWord_toNat _, fdecWord_toNat _, fun _ => rfl, rfl, rfl, rfl, rfl, rfl⟩
  · have hg : g < 8 := hfirst.1
    exact ⟨_, exec_sample_of_firstInvalid hwf hfirst, ends_finish_group s (by omega), sameChannels_finish _ _ _ _,
      sameBuf_finish _ _ _ _, untouched_finish _ _ _ _⟩

/-- A second SAMPLE finds BUF as the first found it, and writes what stands there already (spec 70_reset_and_hazards.md R117). -/
theorem sampleState_sampleState (s : State) : sampleState (sampleState s) = sampleState s := by
  rcases sampleState_cases s with ⟨g, hbad, he⟩ | ⟨hnone, he⟩
  · rw [he, sampleState, State.finish_cfg, State.finish_buf, hbad]
    rfl
  · rw [he, sampleState, State.finish_cfg, State.finish_buf, State.setChannels_cfg, State.setChannels_buf, hnone]
    rfl

/-- Settles O36: SAMPLE leaves the parameters, so the second one answers too, with the state of the first (`sampleState_sampleState`). -/
theorem sampleCanBeRepeated : Obligations.SampleCanBeRepeated := by
  unfold Obligations.SampleCanBeRepeated
  intro s t h
  obtain ⟨hcfg, -⟩ := operationsLeaveArgAndOpAlone _ _ _ h
  obtain ⟨hfit, rfl⟩ := sample_next h
  have hguard : 0 + 24 ≤ (sampleState s).cfg.bufBytes := by
    rw [hcfg]
    omega
  exact (guardBuf_of_le hguard).trans (congrArg _ (sampleState_sampleState s))

end Sys2Proof.Machine
end

section
/-! The errors: what a write to OP reports, exactly when (spec 60_exceptions.md R100, R102), and the one `finish` that reports it. -/

namespace Sys2Proof.Machine

open Sys2Proof.Spec

/-- The table of spec 60_exceptions.md R100: a write of `w` to OP meets the condition of this error, and RESULT then records `res`. -/
def Reports (s : State) (w : Word) : ErrCode → Word → Prop
  | .ok, _ => False
  | .checksum, res =>
    (decode s.cfg.bufBytes w = .ok .chk ∧
      res.toNat = (crc8 s.cfg.crcInit (s.arg.extractLsb' 16 8) (s.arg.extractLsb' 8 8)).toNat ∧
      res.toNat ≠ (s.arg.extractLsb' 0 8).toNat) ∨
    (∃ size, decode s.cfg.bufBytes w = .ok (.parse size) ∧ FirstInvalid s (size.toNat / 2) res.toNat) ∨
    (decode s.cfg.bufBytes w = .ok .sample ∧ FirstInvalid s 8 res.toNat)
  | .arg, res => (decode s.cfg.bufBytes w = .ok .buildSetper ∧ periodMax < s.arg.toNat) ∧ res = 0#32
  | .illegal, res => Illegal s.cfg.bufBytes w ∧ res = 0#32

/-- A data size has 8 bits, so a response has at most 127 groups (spec 30_encoding.md R46). -/
theorem groupCount_le (size : BitVec 8) : groupCount size ≤ 127 := by
  have hsize := size.isLt
  unfold groupCount
  omega

/-- The failing group the operations find is the first invalid one, and its number fits RESULT (spec 42_frame_parser.md R86). -/
theorem firstInvalid_of_firstBad {s : State} {n g : Nat} (hn : n ≤ 127) (h : firstBad s.cfg.crcInit s.buf n = some g) :
    FirstInvalid s n (BitVec.ofNat 32 g).toNat := by
  obtain ⟨hg, hbad, hbefore⟩ := firstBad_eq_some.mp h
  have hfits : (BitVec.ofNat 32 g).toNat = g := Nat.mod_eq_of_lt (by omega)
  rw [hfits]
  exact ⟨hg, fun hvalid => Bool.eq_false_iff.mp hbad (groupOk_iff.mpr hvalid), fun j hj => groupOk_iff.mp (hbefore j hj)⟩

/-- A checksum in RESULT reads as the checksum. -/
theorem setWidth_byte_toNat (c : Byte) : (c.setWidth 32).toNat = c.toNat := BitVec.toNat_setWidth_of_le (by decide)

/-- The codes of spec 10_state.md R20 are different. -/
theorem ErrCode.eq_of_code_eq {e e' : ErrCode} (h : e.code = e'.code) : e = e' := by
  revert h
  cases e <;> cases e' <;> decide

theorem ErrCode.code_toNat_le (e : ErrCode) : e.code.toNat ≤ 3 := by
  cases e <;> decide

section
variable {s t : State} {w : Word} {e : ErrCode} {res : Word}

theorem errField_of_buildFrame {k : Command} {payload : List Half} (h : buildFrame k payload res s = .next t) :
    t.errField = 0#4 := by
  obtain ⟨-, rfl⟩ := buildFrame_next h
  exact State.errField_finish _ .ok _ _

theorem errField_of_buildRead {k : Command} {size : BitVec 8} (hsize : legalSize s.cfg.bufBytes size = true)
    (h : buildRead k size s = .next t) : t.errField = 0#4 :=
  errField_of_buildFrame ((withLegalSize_of_legal hsize).symm.trans h)

/-- SAMPLE rejects a response at its first invalid group, with any parameters (spec 43_float_decoder.md R98). -/
theorem sampleState_of_firstInvalid {g : Nat} (h : FirstInvalid s 8 g) :
    sampleState s = s.finish .checksum 0#8 (BitVec.ofNat 32 g) := by
  rw [sampleState, firstBad_of_firstInvalid h]
  rfl

/-- A write that meets the condition of an error ends with that error, RESULT as recorded, and nothing else written
(spec 60_exceptions.md R101). No write meets two: this is the priority of R102. -/
theorem startOperation_of_reports (hr : Reports s w e res) (h : startOperation w s = .next t) :
    t = (s.setOp w).finish e 0#8 res := by
  have hres : BitVec.ofNat 32 res.toNat = res := (BitVec.ofNat_toNat 32 res).trans (BitVec.setWidth_eq res)
  match e, hr with
  | .checksum, .inl ⟨hd, hcomputed, hdiffers⟩ =>
    have hbyte : (s.setOp w).chkComputed.setWidth 32 = res :=
      BitVec.eq_of_toNat_eq ((setWidth_byte_toNat _).trans hcomputed.symm)
    have hbad : chkErr (s.setOp w) = .checksum := if_neg fun heq => hdiffers (hcomputed.trans (congrArg BitVec.toNat heq))
    rw [startOperation_of_ok hd, exec_chk, hbyte, hbad] at h
    exact (Host.Outcome.next.inj h).symm
  | .checksum, .inr (.inl ⟨size, hd, hfirst⟩) =>
    have hsize : SizeLegal s.cfg.bufBytes size := legalSize_iff.mp (dispatchedWordIsItsEncoding _ _ _ hd).2
    rw [startOperation_of_ok hd, exec_parse_of_firstInvalid (s := s.setOp w) hsize hfirst, hres] at h
    exact (Host.Outcome.next.inj h).symm
  | .checksum, .inr (.inr ⟨hd, hfirst⟩) =>
    obtain ⟨-, hend⟩ := sample_next (startOperation_of_ok hd ▸ h)
    rw [hend, sampleState_of_firstInvalid (s := s.setOp w) hfirst, hres]
  | .arg, ⟨⟨hd, hgt⟩, hzero⟩ =>
    rw [startOperation_of_ok hd, exec_setper_of_gt (s := s.setOp w) hgt] at h
    rw [hzero]
    exact (Host.Outcome.next.inj h).symm
  | .illegal, ⟨⟨_, hd⟩, hzero⟩ =>
    rw [startOperation_of_error hd] at h
    rw [hzero]
    exact (Host.Outcome.next.inj h).symm

/-- A dispatched operation that ends with an error has met its condition. -/
theorem reports_of_exec {i : Instr} (hd : decode s.cfg.bufBytes w = .ok i) (h : exec i (s.setOp w) = .next t)
    (herr : t.errField ≠ 0#4) : ∃ e res, Reports s w e res := by
  have hwf := (dispatchedWordIsItsEncoding _ _ _ hd).2
  cases i with
  | crc | fdec =>
    obtain rfl := Host.Outcome.next.inj h
    exact absurd (State.errField_finish _ .ok _ _) herr
  | chk =>
    obtain rfl := Host.Outcome.next.inj ((exec_chk _).symm.trans h)
    refine ⟨.checksum, _, .inl ⟨hd, setWidth_byte_toNat (s.setOp w).chkComputed, fun heq => herr ?_⟩⟩
    have hok : chkErr (s.setOp w) = .ok := if_pos (BitVec.eq_of_toNat_eq ((setWidth_byte_toNat _).symm.trans heq))
    rw [hok, State.errField_finish]
    rfl
  | buildStart | buildStop | buildReset | buildClean => exact absurd (errField_of_buildFrame h) herr
  | buildRdrdy size | buildRddata size | buildRdser size | buildRdper size =>
    exact absurd (errField_of_buildRead (s := s.setOp w) hwf h) herr
  | buildSetper =>
    rcases setper_next h with ⟨hgt, -⟩ | ⟨-, -, rfl⟩
    · exact ⟨.arg, _, ⟨hd, hgt⟩, rfl⟩
    · exact absurd (State.errField_finish _ .ok _ _) herr
  | parse size =>
    obtain rfl := Host.Outcome.next.inj ((execParse_of_legal (s := s.setOp w) hwf).symm.trans h)
    rcases parseState_cases size (s.setOp w) with ⟨g, hbad, -⟩ | ⟨-, he⟩
    · exact ⟨.checksum, _, .inr (.inl ⟨size, hd, firstInvalid_of_firstBad (groupCount_le size) hbad⟩)⟩
    · exact absurd (he ▸ State.errField_finish _ .ok _ _) herr
  | sample =>
    obtain ⟨-, rfl⟩ := sample_next h
    rcases sampleState_cases (s.setOp w) with ⟨g, hbad, -⟩ | ⟨-, he⟩
    · exact ⟨.checksum, _, .inr (.inr ⟨hd, firstInvalid_of_firstBad (by decide) hbad⟩)⟩
    · exact absurd (he ▸ State.errField_finish _ .ok _ _) herr

/-- A write to OP that ends with an error has met its condition. -/
theorem reports_of_startOperation (h : startOperation w s = .next t) (herr : t.errField ≠ 0#4) :
    ∃ e res, Reports s w e res ∧ t = (s.setOp w).finish e 0#8 res := by
  have hr : ∃ e res, Reports s w e res := by
    rcases startOperation_next h with ⟨i, hd, hexec⟩ | ⟨hillegal, -⟩
    · exact reports_of_exec hd hexec herr
    · exact ⟨.illegal, _, hillegal, rfl⟩
  obtain ⟨e, res, hr⟩ := hr
  exact ⟨e, res, hr, startOperation_of_reports hr h⟩

/-- The error in STATUS is one whose condition the write met, with RESULT as recorded. -/
theorem reports_of_errField (h : startOperation w s = .next t) (he : e ≠ .ok) (hcode : t.errField = e.code) :
    Reports s w e t.result := by
  have herr : t.errField ≠ 0#4 := fun hok => he (ErrCode.code_eq_zero.mp (hcode.symm.trans hok))
  obtain ⟨e', res, hr, rfl⟩ := reports_of_startOperation h herr
  obtain rfl : e' = e := ErrCode.eq_of_code_eq ((State.errField_finish _ e' _ _).symm.trans hcode)
  exact hr

/-- The error whose condition the write meets is the one in STATUS. -/
theorem errField_of_reports (h : startOperation w s = .next t) (hr : Reports s w e res) : t.errField = e.code := by
  rw [startOperation_of_reports hr h, State.errField_finish]

/-- An operation ends with one of the codes of spec 10_state.md R20. -/
theorem errField_le_of_startOperation (h : startOperation w s = .next t) : t.errField.toNat ≤ 3 := by
  by_cases hok : t.errField = 0#4
  · rw [hok]
    decide
  · obtain ⟨e, res, -, rfl⟩ := reports_of_startOperation h hok
    rw [State.errField_finish]
    exact ErrCode.code_toNat_le e

/-- RESULT after a write to OP that ended with an error (spec 60_exceptions.md R100). -/
theorem recordsError_of_startOperation (h : startOperation w s = .next t) : RecordsError s t w :=
  ⟨fun hcode => (reports_of_errField (e := .illegal) h nofun hcode).2,
    fun hcode => (reports_of_errField (e := .arg) h nofun hcode).2,
    fun hcode => (reports_of_errField (e := .checksum) h nofun hcode).imp_left fun ⟨hd, hcomputed, _⟩ => ⟨hd, hcomputed⟩⟩

/-- A step whose oldest input is a write to OP starts the word's operation (spec 20_memory.md R34). -/
theorem startOperation_of_step {rest : List BusInput} (hp : s.pending = .write 32 0x00#8 w :: rest) (h : step s = .next t) :
    startOperation w (s.setPending rest) = .next t :=
  (step_of_aligned_write hp rfl).symm.trans h

end

/-- Settles O44: the write that ended with an error is one `finish` with LEN = 0, on the state in which OP holds the word
(`reports_of_startOperation`). -/
theorem errorsWriteOnlyStatusAndResult : Obligations.ErrorsWriteOnlyStatusAndResult := by
  unfold Obligations.ErrorsWriteOnlyStatusAndResult
  intro s t w rest hp h herr
  have hstart := startOperation_of_step hp h
  have hrecords := recordsError_of_startOperation hstart
  obtain ⟨e, res, -, rfl⟩ := reports_of_startOperation hstart herr
  refine ⟨rfl, ?_, State.lenField_finish _ e _ res, hrecords, fun _ => rfl, ⟨rfl, rfl, rfl, rfl⟩, rfl, rfl, rfl, rfl⟩
  rw [State.finish_status, State.errField_finish, statusWord_toNat]
  exact Nat.zero_add _

/-- Settles O45: STATUS holds an error exactly when the write meets its condition (`reports_of_errField`, `errField_of_reports`), so an
illegal word is ILLEGAL whatever ARG and BUF hold. -/
theorem errorsHaveTheirCauses : Obligations.ErrorsHaveTheirCauses := by
  unfold Obligations.ErrorsHaveTheirCauses
  intro s t w rest hp h
  have hstart := startOperation_of_step hp h
  have hillegal := reports_of_errField (e := .illegal) hstart nofun
  have hchecksum := reports_of_errField (e := .checksum) hstart nofun
  have harg := reports_of_errField (e := .arg) hstart nofun
  exact ⟨errField_le_of_startOperation hstart,
    ⟨fun hcode => (hillegal hcode).1, fun hcause => errField_of_reports (e := .illegal) hstart ⟨hcause, rfl⟩⟩,
    fun hcode => (hillegal hcode).2,
    ⟨fun hcode => (harg hcode).1, fun hcause => errField_of_reports (e := .arg) hstart ⟨hcause, rfl⟩⟩,
    fun hcode => (harg hcode).2,
    ⟨hchecksum, fun hcause => errField_of_reports (s := s.setPending rest) (e := .checksum) hstart hcause⟩⟩

end Sys2Proof.Machine
end

section
/-! The parameters: no step writes one (spec 70_reset_and_hazards.md R114). -/

namespace Sys2Proof.Machine

open Sys2Proof.Spec

/-- A step keeps the parameters, a platform reset among the steps. -/
theorem step_next_cfg {s t : State} (h : step s = .next t) : t.cfg = s.cfg := by
  rcases step_next_cases h with ⟨off, rest, -, -, rfl⟩ | ⟨off, v, rest, -, -, h⟩ | ⟨rest, -, rfl⟩
  · rw [State.setLastRead_cfg, State.setPending_cfg]
  · obtain ⟨hcfg, -, -⟩ := hostWrite_leaves_host h
    rw [hcfg, State.setPending_cfg]
  · rw [platformReset_cfg, State.setPending_cfg]

/-- Settles O15: `step_next_cfg` for the parameters, `step_next_pending` for the queue. -/
theorem stepsKeepParametersAndTakeOneInput : Obligations.StepsKeepParametersAndTakeOneInput := by
  unfold Obligations.StepsKeepParametersAndTakeOneInput
  exact fun s t h => ⟨step_next_cfg h, step_next_pending h⟩

end Sys2Proof.Machine
end
